-- ==== Sys2Proof/Word.lean ====
section
/-! DEFINITION. The word types of the CORE block (00_scope.md R7): what the spec treats as bits is a bit vector,
a register number is an index. -/
namespace Sys2Proof

/-- An 8-bit unsigned value: a V register, DT, ST, a memory byte, the immediate nn (R7, R9). -/
abbrev Byte := BitVec 8

/-- A 16-bit unsigned value: I, pc, a stack entry, an instruction word (R7, R9). -/
abbrev Word := BitVec 16

/-- The 12-bit address field nnn (30_encoding.md R63). -/
abbrev Addr := BitVec 12

/-- The number of a general register, 0 to 15 (10_state.md R17). -/
abbrev Reg := Fin 16

/-- One row of the frame buffer: bit x is the cell in column x (10_state.md R32). -/
abbrev PixelRow := BitVec 64

end Sys2Proof
end

