-- ==== Sys2Proof/Syntax.lean ====
section
/-! DEFINITION. The instructions: one constructor per row of spec/opcode_table.json, in the table's order
(30_encoding.md R67, R72). A comment gives the row's pattern and mnemonic. -/
namespace Sys2Proof

inductive Instr where
  | cls                                     -- 00E0  CLS
  | ret                                     -- 00EE  RET
  | jp (nnn : Addr)                         -- 1nnn  JP nnn
  | call (nnn : Addr)                       -- 2nnn  CALL nnn
  | seImm (x : Reg) (nn : Byte)             -- 3xnn  SE Vx, nn
  | sneImm (x : Reg) (nn : Byte)            -- 4xnn  SNE Vx, nn
  | seReg (x y : Reg)                       -- 5xy0  SE Vx, Vy
  | ldImm (x : Reg) (nn : Byte)             -- 6xnn  LD Vx, nn
  | addImm (x : Reg) (nn : Byte)            -- 7xnn  ADD Vx, nn
  | ldReg (x y : Reg)                       -- 8xy0  LD Vx, Vy
  | orReg (x y : Reg)                       -- 8xy1  OR Vx, Vy
  | andReg (x y : Reg)                      -- 8xy2  AND Vx, Vy
  | xorReg (x y : Reg)                      -- 8xy3  XOR Vx, Vy
  | addReg (x y : Reg)                      -- 8xy4  ADD Vx, Vy
  | subReg (x y : Reg)                      -- 8xy5  SUB Vx, Vy
  | shr (x y : Reg)                         -- 8xy6  SHR Vx, Vy  (y is decoded and ignored, R19)
  | subn (x y : Reg)                        -- 8xy7  SUBN Vx, Vy
  | shl (x y : Reg)                         -- 8xyE  SHL Vx, Vy  (y is decoded and ignored, R19)
  | sneReg (x y : Reg)                      -- 9xy0  SNE Vx, Vy
  | ldI (nnn : Addr)                        -- Annn  LD I, nnn
  | jpV0 (nnn : Addr)                       -- Bnnn  JP V0, nnn
  | rnd (x : Reg) (nn : Byte)               -- Cxnn  RND Vx, nn
  | drw (x y : Reg) (n : Nat)               -- Dxyn  DRW Vx, Vy, n  (n rows, 0 to 15: WellFormed)
  | skp (x : Reg)                           -- Ex9E  SKP Vx
  | sknp (x : Reg)                          -- ExA1  SKNP Vx
  | ldVxDT (x : Reg)                        -- Fx07  LD Vx, DT
  | ldVxK (x : Reg)                         -- Fx0A  LD Vx, K
  | ldDTVx (x : Reg)                        -- Fx15  LD DT, Vx
  | ldSTVx (x : Reg)                        -- Fx18  LD ST, Vx
  | addI (x : Reg)                          -- Fx1E  ADD I, Vx
  | ldF (x : Reg)                           -- Fx29  LD F, Vx
  | ldB (x : Reg)                           -- Fx33  LD B, Vx
  | storeRegs (x : Reg)                     -- Fx55  LD [I], Vx
  | loadRegs (x : Reg)                      -- Fx65  LD Vx, [I]
deriving DecidableEq, Repr

end Sys2Proof
end

