-- ==== Sys2Proof/Decode.lean ====
section
/-! DEFINITION. Bytes and words to instructions, and back (30_encoding.md R63-R71). -/
namespace Sys2Proof

/-! ### Fields of the instruction word (R63) -/

/-- The family digit F = w[15:12]. -/
def fieldF (w : Word) : BitVec 4 := w.extractLsb' 12 4
/-- x = w[11:8]. -/
def fieldX (w : Word) : Reg := (w.extractLsb' 8 4).toFin
/-- y = w[7:4]. -/
def fieldY (w : Word) : Reg := (w.extractLsb' 4 4).toFin
/-- n = w[3:0]. -/
def fieldN (w : Word) : BitVec 4 := w.extractLsb' 0 4
/-- nn = w[7:0]. -/
def fieldNN (w : Word) : Byte := w.extractLsb' 0 8
/-- nnn = w[11:0]. -/
def fieldNNN (w : Word) : Addr := w.extractLsb' 0 12

/-! ### Decode (R67, R68) -/

/-- Why bytes give no instruction. The six undecoded families are the rows of R70; such a word is no fault of the
machine, which runs it as a no-op (R69). -/
inductive Reject where
  | tooShort           -- fewer than the two bytes that every instruction has (R63)
  | undecodedFamily0
  | undecodedFamily5
  | undecodedFamily8
  | undecodedFamily9
  | undecodedFamilyE
  | undecodedFamilyF
deriving DecidableEq, Repr

def decodeFamily0 (w : Word) : Except Reject Instr :=
  match w.toNat with
  | 0x00E0 => .ok .cls
  | 0x00EE => .ok .ret
  | _ => .error .undecodedFamily0

def decodeFamily5 (w : Word) : Except Reject Instr :=
  match (fieldN w).toNat with
  | 0x0 => .ok (.seReg (fieldX w) (fieldY w))
  | _ => .error .undecodedFamily5

def decodeFamily8 (w : Word) : Except Reject Instr :=
  match (fieldN w).toNat with
  | 0x0 => .ok (.ldReg (fieldX w) (fieldY w))
  | 0x1 => .ok (.orReg (fieldX w) (fieldY w))
  | 0x2 => .ok (.andReg (fieldX w) (fieldY w))
  | 0x3 => .ok (.xorReg (fieldX w) (fieldY w))
  | 0x4 => .ok (.addReg (fieldX w) (fieldY w))
  | 0x5 => .ok (.subReg (fieldX w) (fieldY w))
  | 0x6 => .ok (.shr (fieldX w) (fieldY w))
  | 0x7 => .ok (.subn (fieldX w) (fieldY w))
  | 0xE => .ok (.shl (fieldX w) (fieldY w))
  | _ => .error .undecodedFamily8

def decodeFamily9 (w : Word) : Except Reject Instr :=
  match (fieldN w).toNat with
  | 0x0 => .ok (.sneReg (fieldX w) (fieldY w))
  | _ => .error .undecodedFamily9

def decodeFamilyE (w : Word) : Except Reject Instr :=
  match (fieldNN w).toNat with
  | 0x9E => .ok (.skp (fieldX w))
  | 0xA1 => .ok (.sknp (fieldX w))
  | _ => .error .undecodedFamilyE

def decodeFamilyF (w : Word) : Except Reject Instr :=
  match (fieldNN w).toNat with
  | 0x07 => .ok (.ldVxDT (fieldX w))
  | 0x0A => .ok (.ldVxK (fieldX w))
  | 0x15 => .ok (.ldDTVx (fieldX w))
  | 0x18 => .ok (.ldSTVx (fieldX w))
  | 0x1E => .ok (.addI (fieldX w))
  | 0x29 => .ok (.ldF (fieldX w))
  | 0x33 => .ok (.ldB (fieldX w))
  | 0x55 => .ok (.storeRegs (fieldX w))
  | 0x65 => .ok (.loadRegs (fieldX w))
  | _ => .error .undecodedFamilyF

/-- Two-level decode: the family, then a sub-tag where the family has one (R67). Every fixed digit of a pattern must
match (R68, the spec's decision D10; log 10). -/
def decodeWord (w : Word) : Except Reject Instr :=
  match (fieldF w).toNat with
  | 0x0 => decodeFamily0 w
  | 0x1 => .ok (.jp (fieldNNN w))
  | 0x2 => .ok (.call (fieldNNN w))
  | 0x3 => .ok (.seImm (fieldX w) (fieldNN w))
  | 0x4 => .ok (.sneImm (fieldX w) (fieldNN w))
  | 0x5 => decodeFamily5 w
  | 0x6 => .ok (.ldImm (fieldX w) (fieldNN w))
  | 0x7 => .ok (.addImm (fieldX w) (fieldNN w))
  | 0x8 => decodeFamily8 w
  | 0x9 => decodeFamily9 w
  | 0xA => .ok (.ldI (fieldNNN w))
  | 0xB => .ok (.jpV0 (fieldNNN w))
  | 0xC => .ok (.rnd (fieldX w) (fieldNN w))
  | 0xD => .ok (.drw (fieldX w) (fieldY w) (fieldN w).toNat)
  | 0xE => decodeFamilyE w
  | _ => decodeFamilyF w  -- a 4-bit digit: 0xF

/-- The word of two bytes in memory order: the byte at the lower address is w[15:8] (20_memory.md R52). -/
def wordOfBytes (first second : Byte) : Word := first ++ second

/-- A word's two bytes in memory order. -/
def bytesOfWord (w : Word) : List Byte := [w.extractLsb' 8 8, w.extractLsb' 0 8]

/-- Decode from the front of any list of bytes: the instruction and the bytes after it. -/
def decode : List Byte → Except Reject (Instr × List Byte)
  | first :: second :: rest =>
    match decodeWord (wordOfBytes first second) with
    | .ok i => .ok (i, rest)
    | .error e => .error e
  | _ => .error .tooShort

/-! ### Encode (the patterns of R67, fields placed as R63 says) -/

/-- A pattern with the field nnn in its low three digits. -/
def placeNNN (pattern : Nat) (nnn : Addr) : Word := BitVec.ofNat 16 (pattern + nnn.toNat)
/-- A pattern with x in its second digit. -/
def placeX (pattern : Nat) (x : Reg) : Word := BitVec.ofNat 16 (pattern + 0x100 * x.val)
/-- A pattern with x in its second digit and nn in its low byte. -/
def placeXNN (pattern : Nat) (x : Reg) (nn : Byte) : Word := BitVec.ofNat 16 (pattern + 0x100 * x.val + nn.toNat)
/-- A pattern with x and y in its middle digits. -/
def placeXY (pattern : Nat) (x y : Reg) : Word := BitVec.ofNat 16 (pattern + 0x100 * x.val + 0x10 * y.val)

/-- The word of an instruction. -/
def encode : Instr → Word
  | .cls => 0x00E0
  | .ret => 0x00EE
  | .jp nnn => placeNNN 0x1000 nnn
  | .call nnn => placeNNN 0x2000 nnn
  | .seImm x nn => placeXNN 0x3000 x nn
  | .sneImm x nn => placeXNN 0x4000 x nn
  | .seReg x y => placeXY 0x5000 x y
  | .ldImm x nn => placeXNN 0x6000 x nn
  | .addImm x nn => placeXNN 0x7000 x nn
  | .ldReg x y => placeXY 0x8000 x y
  | .orReg x y => placeXY 0x8001 x y
  | .andReg x y => placeXY 0x8002 x y
  | .xorReg x y => placeXY 0x8003 x y
  | .addReg x y => placeXY 0x8004 x y
  | .subReg x y => placeXY 0x8005 x y
  | .shr x y => placeXY 0x8006 x y
  | .subn x y => placeXY 0x8007 x y
  | .shl x y => placeXY 0x800E x y
  | .sneReg x y => placeXY 0x9000 x y
  | .ldI nnn => placeNNN 0xA000 nnn
  | .jpV0 nnn => placeNNN 0xB000 nnn
  | .rnd x nn => placeXNN 0xC000 x nn
  | .drw x y n => placeXY (0xD000 + n) x y
  | .skp x => placeX 0xE09E x
  | .sknp x => placeX 0xE0A1 x
  | .ldVxDT x => placeX 0xF007 x
  | .ldVxK x => placeX 0xF00A x
  | .ldDTVx x => placeX 0xF015 x
  | .ldSTVx x => placeX 0xF018 x
  | .addI x => placeX 0xF01E x
  | .ldF x => placeX 0xF029 x
  | .ldB x => placeX 0xF033 x
  | .storeRegs x => placeX 0xF055 x
  | .loadRegs x => placeX 0xF065 x

/-- An instruction's bytes in memory order. -/
def encodeBytes (i : Instr) : List Byte := bytesOfWord (encode i)

/-! ### The opcode table's numbering -/

/-- The word whose bits the opcode table numbers w, its bits above nbits zero. -/
def tableWord (nbits w : Nat) : Word := BitVec.ofNat 16 (w % 2 ^ nbits)

/-- What the decoder reads from an instruction of the opcode table, laid out in memory order. -/
def decodeTableWord (nbits w : Nat) : Option Instr :=
  match decode (bytesOfWord (tableWord nbits w)) with
  | .ok (i, _) => some i
  | .error _ => none

end Sys2Proof
end

