-- ==== Sys2Proof/Config.lean ====
section
/-! DEFINITION. What is fixed for the machine: the numbers and the named parameters of 00_scope.md R7, and the free
values, which have no body. -/
namespace Sys2Proof

/-- POP_EMPTY_POLICY (R7, R26): what 00EE does when SP = 0. The source is silent; the parameter is the spec's (D6). -/
inductive PopEmptyPolicy where
  | drop   -- the spec's default: no pop, pc advances
  | fault  -- the model stops with ReturnUnderflow
deriving DecidableEq, Repr

/-- KEY_INDEX_OOR (R7, R113): how Ex9E and ExA1 read a key index of 16 or more (D9). -/
inductive KeyIndexOor where
  | up         -- the spec's default: such a key is up
  | lowNibble  -- the index is taken mod 16
deriving DecidableEq, Repr

namespace Config

/-- MEM_SIZE (R7, R45). -/
def memSize : Nat := 4096
/-- PROG_BASE: where the ROM is loaded (R7, R48). -/
def progBase : Nat := 0x200
/-- RESET_PC (R7, R145). -/
def resetPc : Word := 0x200
/-- ROM_MAX: the bytes from PROG_BASE to the end of memory (R7, R132). -/
def romMax : Nat := 3584
/-- FB_WIDTH (R7, R32). -/
def fbWidth : Nat := 64
/-- FB_HEIGHT (R7, R32). -/
def fbHeight : Nat := 32

/-- The glyphs 0 to 7 of the default FONT (20_memory.md R49), five bytes each, top row first. -/
def fontLow : List Byte :=
  [0xF0, 0x90, 0x90, 0x90, 0xF0] ++ [0x20, 0x60, 0x20, 0x20, 0x70] ++
  [0xF0, 0x10, 0xF0, 0x80, 0xF0] ++ [0xF0, 0x10, 0xF0, 0x10, 0xF0] ++
  [0x90, 0x90, 0xF0, 0x10, 0x10] ++ [0xF0, 0x80, 0xF0, 0x10, 0xF0] ++
  [0xF0, 0x80, 0xF0, 0x90, 0xF0] ++ [0xF0, 0x10, 0x20, 0x40, 0x40]

/-- The glyphs 8 to F of the default FONT (20_memory.md R49). -/
def fontHigh : List Byte :=
  [0xF0, 0x90, 0xF0, 0x90, 0xF0] ++ [0xF0, 0x90, 0xF0, 0x10, 0xF0] ++
  [0xF0, 0x90, 0xF0, 0x90, 0x90] ++ [0xE0, 0x90, 0xE0, 0x90, 0xE0] ++
  [0xF0, 0x80, 0x80, 0x80, 0xF0] ++ [0xE0, 0x90, 0x90, 0x90, 0xE0] ++
  [0xF0, 0x80, 0xF0, 0x80, 0xF0] ++ [0xF0, 0x80, 0xF0, 0x80, 0x80]

/-- The spec's default of the parameter FONT (20_memory.md R49). The spec marks the 80 values as general knowledge,
not source (D8, G1): PRESUMED, log 2, unsafe for a claim about a glyph's pixels. -/
def defaultFont : Vector Byte 80 := ⟨(fontLow ++ fontHigh).toArray, by decide⟩

/-- FREE VALUE. The byte that the input rand_byte gives the draw of this index when the environment presents none
(10_state.md R36, D14). It has no body, so nothing can be proved of it; log 12. -/
opaque rand : Nat → Byte

/-- FREE VALUE. What a frame read shows of row y in the clock cycle of this index while a step is in progress (I15: "any
value"); log 20. -/
opaque busyRow : Nat → Nat → PixelRow

end Config

/-- The named parameters of R7 that a state's behaviour depends on: "a named argument of the model", each with a spec
default. They are fixed for a machine; a statement about every state covers every value of them. -/
structure Params where
  /-- FONT (R49, D8). -/
  font : Vector Byte 80
  /-- POP_EMPTY_POLICY (R26, D6). -/
  popEmpty : PopEmptyPolicy
  /-- KEY_INDEX_OOR (R113, D9). -/
  keyIndexOor : KeyIndexOor
deriving DecidableEq, Repr

/-- The spec's defaults (R7). -/
def Params.default : Params :=
  { font := Config.defaultFont, popEmpty := .drop, keyIndexOor := .up }

end Sys2Proof
end

