-- ==== Sys2Proof/Machine/State.lean ====
section
/-! DEFINITION. The state of the CORE block as plain data, why a step can stop, and the state after reset
(10_state.md R16, 70_reset_and_hazards.md R144). -/
namespace Sys2Proof.Machine

/-- Mem (20_memory.md R45), as the bytes that differ from the reset contents: addresses strictly rising, and no entry
equal to what an unlisted address reads as (Memory.wf and Memory.initial, Machine/Ops.lean). -/
abbrev Memory := List Host.Cell

/-- FB: the 32 rows of the frame buffer (10_state.md R32). -/
abbrev Frame := Vector PixelRow 32

/-- The outputs that the spec names and calls non-architectural (10_state.md R37, R40, R44). A pulse says what the
operation just completed did; clearPulses takes it away at the next one. -/
structure Outputs where
  /-- diag_undecoded: the step decoded no pattern (30_encoding.md R69). A one-step pulse. -/
  diagUndecoded : Bool
  /-- diag_call_dropped: the step dropped a call (40_control_flow.md R77). A one-step pulse. -/
  diagCallDropped : Bool
  /-- diag_return_dropped: the step dropped a return (40_control_flow.md R75). A one-step pulse. -/
  diagReturnDropped : Bool
  /-- rom_truncated: a load byte was dropped (60_exceptions.md R132). Sticky until reset. -/
  romTruncated : Bool
  /-- tone_trigger: the tick found ST != 0 (44_keys_timers.md R121). A one-tick pulse. -/
  toneTrigger : Bool
  /-- busy: a step is in progress (60_exceptions.md R135). -/
  busy : Bool
  /-- step_done: a step's writes are complete (60_exceptions.md R135). A one-cycle pulse. -/
  stepDone : Bool
deriving DecidableEq, Repr

/-- Every output low (70_reset_and_hazards.md R144). -/
def Outputs.low : Outputs :=
  { diagUndecoded := false, diagCallDropped := false, diagReturnDropped := false, romTruncated := false,
    toneTrigger := false, busy := false, stepDone := false }

/-- The architectural state (10_state.md R16), then the outputs, then the model's own fields. -/
structure State where
  /-- V[0..15] (R17). -/
  v : Vector Byte 16
  /-- The index register I (R20). -/
  i : Word
  /-- The program counter: the address of the next instruction to fetch (R21). -/
  pc : Word
  /-- Stack[0..15] (R24). -/
  stack : Vector Word 16
  /-- The stack pointer SP, four bits (R24). -/
  sp : BitVec 4
  /-- The delay timer DT (R29). -/
  dt : Byte
  /-- The sound timer ST (R30). -/
  st : Byte
  /-- Mem (20_memory.md R45). -/
  mem : Memory
  /-- The frame buffer FB (R32). -/
  fb : Frame
  /-- The key latch: bit k is Key[k], 1 = down (R31, 60_exceptions.md R133). -/
  key : BitVec 16
  /-- The outputs (R37). -/
  out : Outputs
  /-- MODEL'S OWN: the parameters of 00_scope.md R7. -/
  params : Params
  /-- MODEL'S OWN: what the environment presents on the input rand_byte (R36); none leaves the draw free. -/
  randPort : Option Byte
  /-- MODEL'S OWN: the index of the next free value (log 12, log 20). -/
  fresh : Nat
deriving DecidableEq, Repr

/-- Why a step stops with a fault. The hardware has none (60_exceptions.md R123). -/
inductive Fault where
  /-- ReturnUnderflow(pc): raised by RET with SP = 0 under POP_EMPTY_POLICY = fault, never under the default
  (40_control_flow.md R75). Safe: the model stops where the hardware goes on. -/
  | returnUnderflow (pc : Word)
deriving DecidableEq, Repr

/-- Why a step is refused. -/
inductive Refusal where
  /-- Raised by an arm of exec whose instruction has no meaning yet (there is none). Safe: the model stops. -/
  | notModelled (mnemonic : String)
deriving DecidableEq, Repr

/-- The state right after reset (70_reset_and_hazards.md R144): memory holds FONT and zeros, which is what unlisted
addresses read as. The parameters are the spec's defaults (R7); randPort and fresh are the model's (log 12). -/
def State.reset : State :=
  { v := Vector.replicate 16 0, i := 0, pc := Config.resetPc, stack := Vector.replicate 16 0, sp := 0, dt := 0, st := 0,
    mem := [], fb := Vector.replicate 32 0, key := 0, out := Outputs.low, params := Params.default, randPort := none,
    fresh := 0 }

end Sys2Proof.Machine
end

