-- ==== Sys2Proof/Machine/Ops.lean ====
section
/-! DEFINITION. The named operations over the state, unit by unit (10_state.md R38-R44), with the port of the spec that
each one is. The hardware takes no exception and returns from none (60_exceptions.md R123, R127, R128), so no
operation here does. -/
namespace Sys2Proof.Machine

/-! ### chip8_memory_controller (R41) -/

/-- What an address that the list does not name reads as: the reset contents, the default FONT at 0x000-0x04F and 0x00
elsewhere (20_memory.md R48, R49; log 1). -/
def Memory.initial (a : Nat) : Byte := (Config.fontLow ++ Config.fontHigh).getD a 0

/-- The addresses rise strictly, each above `low`. -/
def Memory.rising : Nat → Memory → Bool
  | _, [] => true
  | low, c :: m => decide (low ≤ c.1) && Memory.rising (c.1 + 1) m

/-- The canonical form: rising addresses inside the 4096 bytes, and no entry equal to its initial byte. -/
def Memory.wf (m : Memory) : Bool :=
  Memory.rising 0 m && m.all (fun c => decide (c.1 < Config.memSize) && c.2 != Memory.initial c.1)

/-- The byte at an address below 4096. -/
def Memory.get : Memory → Nat → Byte
  | [], a => Memory.initial a
  | c :: m, a => if c.1 = a then c.2 else Memory.get m a

/-- An entry in front, unless it would equal the initial byte. -/
def Memory.cons (a : Nat) (b : Byte) (m : Memory) : Memory :=
  if b = Memory.initial a then m else (a, b) :: m

/-- Write the byte at an address below 4096, keeping the canonical form. -/
def Memory.put : Memory → Nat → Byte → Memory
  | [], a, b => Memory.cons a b []
  | c :: m, a, b =>
    if a < c.1 then Memory.cons a b (c :: m)
    else if a = c.1 then Memory.cons a b m
    else c :: Memory.put m a b

/-- The address reduction of every memory access: mod 4096, of the address computed over the integers
(20_memory.md R46, R47; the spec's decision D3, log 5). It is applied here and nowhere else (R41). -/
def maskAddr (a : Nat) : Nat := a % Config.memSize

/-- MemRead(a, 1) (R47): the port d_addr, d_rdata. -/
def State.memRead (s : State) (a : Nat) : Byte := Memory.get s.mem (maskAddr a)

/-- MemWrite(a, 1, b) (R47): the port d_we, d_wdata. No protection (R51). -/
def State.memWrite (s : State) (a : Nat) (b : Byte) : State := { s with mem := Memory.put s.mem (maskAddr a) b }

/-- The bytes of a list written from an address upwards, each address reduced (R46). -/
def Memory.putList : Memory → Nat → List Byte → Memory
  | m, _, [] => m
  | m, a, b :: bs => Memory.putList (Memory.put m (maskAddr a) b) (a + 1) bs

/-- MemWrite of the bytes of a list at a, a + 1, ... in order (R56). -/
def State.memWriteList (s : State) (a : Nat) (bs : List Byte) : State := { s with mem := Memory.putList s.mem a bs }

/-- The fetch f_addr, f_word: the two bytes at pc and pc + 1, big-endian (20_memory.md R52, R54, R55). -/
def State.fetchWord (s : State) : Word := wordOfBytes (s.memRead s.pc.toNat) (s.memRead (s.pc.toNat + 1))

/-! ### chip8_register_file (R38) -/

/-- VF, the flag register (10_state.md R18). -/
def vf : Reg := 15

/-- V[x]: the ports ra_idx, ra_data. -/
def State.reg (s : State) (x : Reg) : Byte := s.v[x]

/-- V[x] <- b: the port v_we. -/
def State.setReg (s : State) (x : Reg) (b : Byte) : State := { s with v := s.v.set x.val b x.isLt }

/-- V[r] <- f r for the registers of a list, in order. -/
def State.setRegs (s : State) (rs : List Reg) (f : Reg → Byte) : State :=
  { s with v := rs.foldl (fun v r => v.set r.val (f r) r.isLt) s.v }

/-- I <- w: the port i_we. -/
def State.setIndex (s : State) (w : Word) : State := { s with i := w }

/-- pc <- target: the port pc_we. Nothing is added and no alignment is checked (R74, R22). -/
def State.jumpTo (s : State) (target : Word) : State := { s with pc := target }

/-- advance: pc <- (pc + 2) mod 2^16 (00_scope.md R13). -/
def State.advance (s : State) : State := s.jumpTo (s.pc + 2)

/-- skip: pc <- (pc + 4) mod 2^16 (00_scope.md R13). -/
def State.skip (s : State) : State := s.jumpTo (s.pc + 4)

/-- Skip when the condition holds, else advance (R78-R81, R114, R115). -/
def State.skipIf (s : State) (c : Bool) : State := if c then s.skip else s.advance

/-! ### chip8_stack_fifo (R39) -/

/-- Stack[k]. -/
def State.stackAt (s : State) (k : Fin 16) : Word := s.stack[k]

/-- full: SP = 15 (R39). -/
def State.stackFull (s : State) : Bool := s.sp == 15

/-- empty: SP = 0 (R39). -/
def State.stackEmpty (s : State) : Bool := s.sp == 0

/-- top: Stack[SP] (R39). -/
def State.stackTop (s : State) : Word := s.stackAt s.sp.toFin

/-- Push, pre-increment; ignored when full (R25). -/
def State.push (s : State) (w : Word) : State :=
  if s.stackFull then s
  else { s with sp := s.sp + 1, stack := s.stack.set (s.sp + 1).toNat w (s.sp + 1).isLt }

/-- Pop; the popped entry is not cleared; ignored when empty (R26). The value is stackTop before it. -/
def State.pop (s : State) : State := if s.stackEmpty then s else { s with sp := s.sp - 1 }

/-! ### chip8_timer_countdown_pair (R40) -/

/-- DT <- b: the port dt_we. -/
def State.setDT (s : State) (b : Byte) : State := { s with dt := b }

/-- ST <- b: the port st_we. It does not pulse tone_trigger (44_keys_timers.md R119). -/
def State.setST (s : State) (b : Byte) : State := { s with st := b }

/-- A timer after a tick: one less, never below 0 (44_keys_timers.md R120). -/
def countDown (b : Byte) : Byte := if b = 0 then 0 else b - 1

/-- st_active: ST != 0 (44_keys_timers.md R121). -/
def State.stActive (s : State) : Bool := s.st != 0

/-! ### chip8_frame_buffer_controller (R42) -/

/-- FB[y][x] of a frame buffer: the port px_old. -/
def Frame.pixel (f : Frame) (y : Fin 32) (x : Fin 64) : Bool := f[y].getLsbD x.val

/-- FB[y][x] <- FB[y][x] ^ b: the port px_we. -/
def Frame.xorPixel (f : Frame) (y : Fin 32) (x : Fin 64) (b : Bool) : Frame :=
  f.set y.val (f[y] ^^^ ((BitVec.ofBool b).setWidth 64 <<< x.val)) y.isLt

/-- FB[y][x] (10_state.md R32). -/
def State.cell (s : State) (y : Fin 32) (x : Fin 64) : Bool := Frame.pixel s.fb y x

/-- FB <- f. -/
def State.setFrame (s : State) (f : Frame) : State := { s with fb := f }

/-- FB[*][*] <- 0: the port clr (43_display.md R106). -/
def State.clearFrame (s : State) : State := s.setFrame (Vector.replicate 32 0)

/-! ### chip8_sprite_draw_collision_unit (R43): the algorithm of 43_display.md R107 -/

/-- One column of one row. A column at 64 or beyond is skipped (R109); column 0 is bit 7 of the row byte (R108, the
spec's decision D7, log 7). The second part says whether a 1-bit has met a set cell so far (R110). -/
def drawCell (bits : Byte) (x0 : Nat) (y : Fin 32) (d : Frame × Bool) (col : Nat) : Frame × Bool :=
  if h : x0 + col < 64 then
    let b := bits.getLsbD (7 - col)
    let old := Frame.pixel d.1 y ⟨x0 + col, h⟩
    (Frame.xorPixel d.1 y ⟨x0 + col, h⟩ b, d.2 || (b && old))
  else d

/-- The eight columns of one row. -/
def drawRow (bits : Byte) (x0 : Nat) (y : Fin 32) (d : Frame × Bool) : Frame × Bool :=
  [0, 1, 2, 3, 4, 5, 6, 7].foldl (drawCell bits x0 y) d

/-- The rows from `row` on, `left` of them. The first row at y = 32 or beyond ends the draw (R109). -/
def drawRows (mem : Memory) (base x0 y0 : Nat) : Nat → Nat → Frame × Bool → Frame × Bool
  | 0, _, d => d
  | left + 1, row, d =>
    if h : y0 + row < 32 then
      drawRows mem base x0 y0 left (row + 1) (drawRow (Memory.get mem (maskAddr (base + row))) x0 ⟨y0 + row, h⟩ d)
    else d

/-- A whole draw of n rows from memory at `base`, at (x0, y0): the new frame buffer, and the output collision. -/
def drawSprite (mem : Memory) (base x0 y0 n : Nat) (f : Frame) : Frame × Bool :=
  drawRows mem base x0 y0 n 0 (f, false)

/-! ### chip8_decode_execute_unit (R44): the key latch, the random input, the outputs -/

/-- Key[k] (10_state.md R31). -/
def State.keyAt (s : State) (k : Fin 16) : Bool := s.key.getLsbD k.val

/-- The 16 numbers 0x0 to 0xF in ascending order: the order of the key scan, and of Fx55 and Fx65. -/
def ascending : List (Fin 16) := [0, 1, 2, 3, 4, 5, 6, 7, 8, 9, 10, 11, 12, 13, 14, 15]

/-- The first key down, scanning 0x0 to 0xF (44_keys_timers.md R117). -/
def State.firstKeyDown (s : State) : Option (Fin 16) := ascending.find? (fun k => s.keyAt k)

/-- Rand(): what the environment presents on rand_byte, else a free value (10_state.md R36; log 12). -/
def State.drawByte (s : State) : Byte :=
  match s.randPort with
  | some b => b
  | none => Config.rand s.fresh

/-- The draw is used up: the next one is another value of the input. -/
def State.nextDraw (s : State) : State := { s with randPort := none, fresh := s.fresh + 1 }

/-- The byte that the environment presents on rand_byte, or none (R44). -/
def State.setRandPort (s : State) (b : Option Byte) : State := { s with randPort := b }

/-- Key[k] <- d[k] for all k: the port keys_we (60_exceptions.md R133). -/
def State.setKey (s : State) (d : BitVec 16) : State := { s with key := d }

/-- The outputs become o. -/
def State.setOut (s : State) (o : Outputs) : State := { s with out := o }

/-- diag_undecoded <- 1 (30_encoding.md R69). -/
def State.raiseUndecoded (s : State) : State := s.setOut { s.out with diagUndecoded := true }

/-- diag_call_dropped <- 1 (40_control_flow.md R77). -/
def State.raiseCallDropped (s : State) : State := s.setOut { s.out with diagCallDropped := true }

/-- diag_return_dropped <- 1 (40_control_flow.md R75). -/
def State.raiseReturnDropped (s : State) : State := s.setOut { s.out with diagReturnDropped := true }

/-- The outputs with the one-operation pulses low: the diagnostics and tone_trigger (R40, D19; log 14). -/
def Outputs.quiet (o : Outputs) : Outputs :=
  { o with diagUndecoded := false, diagCallDropped := false, diagReturnDropped := false, toneTrigger := false }

/-- The pulses of the operation before go low. rom_truncated is sticky, and busy and step_done belong to the handshake
(Machine/HostPort.lean). -/
def State.clearPulses (s : State) : State := s.setOut s.out.quiet

/-- An undecoded word: pc advances, diag_undecoded is high for the step, nothing else changes (30_encoding.md R69). -/
def State.runUndecoded (s : State) : State := s.raiseUndecoded.advance

end Sys2Proof.Machine
end

