-- ==== Sys2Proof/Machine/Flags.lean ====
section
/-! DEFINITION. The flag computations, all written to VF, the only flag (10_state.md R18, R33; 41_register_alu.md
R97). -/
namespace Sys2Proof.Machine

/-- A flag as the byte 1 or 0. -/
def flagByte (f : Bool) : Byte := if f then 1 else 0

/-- VF <- f. -/
def State.setFlag (s : State) (f : Bool) : State := s.setReg vf (flagByte f)

/-- Carry of an addition: the widened sum is above 255 (R91). -/
def carryOut (a b : Byte) : Bool := decide (a.toNat + b.toNat > 255)

/-- No borrow of a subtraction: the minuend is at least the subtrahend (R92, R94). -/
def noBorrow (minuend subtrahend : Byte) : Bool := decide (minuend.toNat ≥ subtrahend.toNat)

/-- The bit shifted out to the right: bit 0 (R93). -/
def lowBit (b : Byte) : Bool := b.getLsbD 0

/-- The bit shifted out to the left: bit 7 (R95). -/
def highBit (b : Byte) : Bool := b.getLsbD 7

end Sys2Proof.Machine
end

