-- ==== Sys2Proof/Machine/Operands.lean ====
section
/-! DEFINITION. The operand forms (30_encoding.md R64, R65; 42_index_memory.md R98). A register operand is State.reg,
an immediate nn is the byte itself. -/
namespace Sys2Proof.Machine

/-- zext_16(nnn) (30_encoding.md R64). -/
def zext16 (nnn : Addr) : Word := nnn.setWidth 16

/-- The target of Bnnn: zext_16(nnn) + V[0], which fits 16 bits (40_control_flow.md R82). -/
def State.offsetTarget (s : State) (nnn : Addr) : Word := zext16 nnn + (s.reg 0).setWidth 16

/-- The return address of a call: (pc + 2) mod 2^16 (40_control_flow.md R77). -/
def State.returnAddress (s : State) : Word := s.pc + 2

/-- The address of the k-th byte of a data access, I + k over the integers; the access reduces it (R98). -/
def State.effAddr (s : State) (k : Nat) : Nat := s.i.toNat + k

/-- The registers V[0] to V[x] of Fx55 and Fx65, in order (42_index_memory.md R103, R104). -/
def regsUpTo (x : Reg) : List Reg := ascending.take (x.val + 1)

/-- KeyDown(b) (44_keys_timers.md R113; the spec's decision D9, log 4). -/
def State.keyDown (s : State) (b : Byte) : Bool :=
  if h : b.toNat < 16 then s.keyAt ⟨b.toNat, h⟩
  else
    match s.params.keyIndexOor with
    | .up => false
    | .lowNibble => s.keyAt (b.extractLsb' 0 4).toFin

/-- The start column of a draw: V[x] mod 64 (43_display.md R107). -/
def State.startColumn (s : State) (x : Reg) : Nat := (s.reg x).toNat % Config.fbWidth

/-- The start row of a draw: V[y] mod 32 (43_display.md R107). -/
def State.startRow (s : State) (y : Reg) : Nat := (s.reg y).toNat % Config.fbHeight

/-- The address of the glyph of a byte, V[x] * 5, with no masking to a digit (42_index_memory.md R101). -/
def glyphAddr (b : Byte) : Word := BitVec.ofNat 16 (b.toNat * 5)

/-- The hundreds, tens and ones of a byte (42_index_memory.md R102). -/
def bcdDigits (b : Byte) : List Byte :=
  [BitVec.ofNat 8 (b.toNat / 100), BitVec.ofNat 8 (b.toNat / 10 % 10), BitVec.ofNat 8 (b.toNat % 10)]

end Sys2Proof.Machine
end

