-- ==== Sys2Proof/Machine/Alu.lean ====
section
/-! DEFINITION. The register and arithmetic instructions (41_register_alu.md). Statements run in the order written: a
flag write comes first, and what follows reads VF as it left it (00_scope.md R11, R84; the spec's decision D1,
log 6). -/
namespace Sys2Proof.Machine

/-- V[x] <- b, then advance: the shape of the instructions that write no flag. -/
def State.finishReg (s : State) (x : Reg) (b : Byte) : State := (s.setReg x b).advance

/-- 6xnn LD Vx, nn (R85). -/
def execLdImm (x : Reg) (nn : Byte) (s : State) : Host.Outcome State Fault Refusal := .next (s.finishReg x nn)

/-- 7xnn ADD Vx, nn: no flag (R86). -/
def execAddImm (x : Reg) (nn : Byte) (s : State) : Host.Outcome State Fault Refusal :=
  .next (s.finishReg x (s.reg x + nn))

/-- 8xy0 LD Vx, Vy (R87). -/
def execLdReg (x y : Reg) (s : State) : Host.Outcome State Fault Refusal := .next (s.finishReg x (s.reg y))

/-- 8xy1 OR Vx, Vy (R88). -/
def execOrReg (x y : Reg) (s : State) : Host.Outcome State Fault Refusal := .next (s.finishReg x (s.reg x ||| s.reg y))

/-- 8xy2 AND Vx, Vy (R89). -/
def execAndReg (x y : Reg) (s : State) : Host.Outcome State Fault Refusal := .next (s.finishReg x (s.reg x &&& s.reg y))

/-- 8xy3 XOR Vx, Vy (R90). -/
def execXorReg (x y : Reg) (s : State) : Host.Outcome State Fault Refusal := .next (s.finishReg x (s.reg x ^^^ s.reg y))

/-- 8xy4 ADD Vx, Vy: both operands are read before the flag is written (R91). -/
def execAddReg (x y : Reg) (s : State) : Host.Outcome State Fault Refusal :=
  let sum := s.reg x + s.reg y
  .next ((s.setFlag (carryOut (s.reg x) (s.reg y))).finishReg x sum)

/-- 8xy5 SUB Vx, Vy: V[x] and V[y] are read again after the flag is written (R92). -/
def execSubReg (x y : Reg) (s : State) : Host.Outcome State Fault Refusal :=
  let t := s.setFlag (noBorrow (s.reg x) (s.reg y))
  .next (t.finishReg x (t.reg x - t.reg y))

/-- 8xy6 SHR Vx: y is ignored; V[x] is read again after the flag is written (R93). -/
def execShr (x _y : Reg) (s : State) : Host.Outcome State Fault Refusal :=
  let t := s.setFlag (lowBit (s.reg x))
  .next (t.finishReg x (t.reg x >>> 1))

/-- 8xy7 SUBN Vx, Vy: V[y] and V[x] are read again after the flag is written (R94). -/
def execSubn (x y : Reg) (s : State) : Host.Outcome State Fault Refusal :=
  let t := s.setFlag (noBorrow (s.reg y) (s.reg x))
  .next (t.finishReg x (t.reg y - t.reg x))

/-- 8xyE SHL Vx: y is ignored; V[x] is read again after the flag is written (R95). -/
def execShl (x _y : Reg) (s : State) : Host.Outcome State Fault Refusal :=
  let t := s.setFlag (highBit (s.reg x))
  .next (t.finishReg x (t.reg x <<< 1))

/-- Cxnn RND Vx, nn: one draw of the random input under a mask (R96). -/
def execRnd (x : Reg) (nn : Byte) (s : State) : Host.Outcome State Fault Refusal :=
  .next (s.nextDraw.finishReg x (s.drawByte &&& nn))

end Sys2Proof.Machine
end

