-- ==== Sys2Proof/Machine/Control.lean ====
section
/-! DEFINITION. The control-transfer instructions (40_control_flow.md). While an instruction executes, pc is its own
address (00_scope.md R13). -/
namespace Sys2Proof.Machine

/-- 00EE RET (R75). The empty stack follows POP_EMPTY_POLICY (R26, the spec's decision D6; log 3). -/
def execRet (s : State) : Host.Outcome State Fault Refusal :=
  if s.stackEmpty then
    match s.params.popEmpty with
    | .drop => .next s.raiseReturnDropped.advance
    | .fault => .fault (.returnUnderflow s.pc)
  else .next (s.pop.jumpTo s.stackTop)

/-- 1nnn JP nnn (R76). -/
def execJp (nnn : Addr) (s : State) : Host.Outcome State Fault Refusal := .next (s.jumpTo (zext16 nnn))

/-- 2nnn CALL nnn (R77). A call at a full stack is dropped and pc advances (the spec's decision D5; log 9). -/
def execCall (nnn : Addr) (s : State) : Host.Outcome State Fault Refusal :=
  if s.stackFull then .next s.raiseCallDropped.advance
  else .next ((s.push s.returnAddress).jumpTo (zext16 nnn))

/-- 3xnn SE Vx, nn (R78). -/
def execSeImm (x : Reg) (nn : Byte) (s : State) : Host.Outcome State Fault Refusal := .next (s.skipIf (s.reg x == nn))

/-- 4xnn SNE Vx, nn (R79). -/
def execSneImm (x : Reg) (nn : Byte) (s : State) : Host.Outcome State Fault Refusal := .next (s.skipIf (s.reg x != nn))

/-- 5xy0 SE Vx, Vy (R80). -/
def execSeReg (x y : Reg) (s : State) : Host.Outcome State Fault Refusal := .next (s.skipIf (s.reg x == s.reg y))

/-- 9xy0 SNE Vx, Vy (R81). -/
def execSneReg (x y : Reg) (s : State) : Host.Outcome State Fault Refusal := .next (s.skipIf (s.reg x != s.reg y))

/-- Bnnn JP V0, nnn (R82). -/
def execJpV0 (nnn : Addr) (s : State) : Host.Outcome State Fault Refusal := .next (s.jumpTo (s.offsetTarget nnn))

end Sys2Proof.Machine
end

