-- ==== Sys2Proof/Machine/Display.lean ====
section
/-! DEFINITION. The display instructions (43_display.md). -/
namespace Sys2Proof.Machine

/-- 00E0 CLS (R106). -/
def execCls (s : State) : Host.Outcome State Fault Refusal := .next s.clearFrame.advance

/-- Dxyn DRW Vx, Vy, n (R107). The start position is read before VF is reset (R11); VF is written once, with the
collision output of the draw unit, which R111 derives to be the same final state as R107's reset and set. -/
def execDrw (x y : Reg) (n : Nat) (s : State) : Host.Outcome State Fault Refusal :=
  let d := drawSprite s.mem s.i.toNat (s.startColumn x) (s.startRow y) n s.fb
  .next ((s.setFrame d.1).setFlag d.2).advance

end Sys2Proof.Machine
end

