-- ==== Sys2Proof/Machine/Index.lean ====
section
/-! DEFINITION. The index-register and memory instructions (42_index_memory.md). None of them changes I as a side
effect of an access (R98). -/
namespace Sys2Proof.Machine

/-- Annn LD I, nnn (R99). -/
def execLdI (nnn : Addr) (s : State) : Host.Outcome State Fault Refusal := .next (s.setIndex (zext16 nnn)).advance

/-- Fx1E ADD I, Vx: 16-bit wrap, no flag (R100). -/
def execAddI (x : Reg) (s : State) : Host.Outcome State Fault Refusal :=
  .next (s.setIndex (s.i + (s.reg x).setWidth 16)).advance

/-- Fx29 LD F, Vx (R101). -/
def execLdF (x : Reg) (s : State) : Host.Outcome State Fault Refusal := .next (s.setIndex (glyphAddr (s.reg x))).advance

/-- Fx33 LD B, Vx: the three digits at I, I + 1 and I + 2 (R102). -/
def execLdB (x : Reg) (s : State) : Host.Outcome State Fault Refusal :=
  .next (s.memWriteList (s.effAddr 0) (bcdDigits (s.reg x))).advance

/-- Fx55 LD [I], Vx: V[0] to V[x] at I, I + 1, ... (R103). -/
def execStoreRegs (x : Reg) (s : State) : Host.Outcome State Fault Refusal :=
  .next (s.memWriteList (s.effAddr 0) ((regsUpTo x).map (fun r => s.reg r))).advance

/-- Fx65 LD Vx, [I]: V[0] to V[x] from I, I + 1, ... (R104). -/
def execLoadRegs (x : Reg) (s : State) : Host.Outcome State Fault Refusal :=
  .next (s.setRegs (regsUpTo x) (fun r => s.memRead (s.effAddr r.val))).advance

end Sys2Proof.Machine
end

