-- ==== Sys2Proof/Machine/KeysTimers.lean ====
section
/-! DEFINITION. The key and timer instructions (44_keys_timers.md R113-R119). -/
namespace Sys2Proof.Machine

/-- Ex9E SKP Vx (R114). -/
def execSkp (x : Reg) (s : State) : Host.Outcome State Fault Refusal := .next (s.skipIf (s.keyDown (s.reg x)))

/-- ExA1 SKNP Vx (R115). -/
def execSknp (x : Reg) (s : State) : Host.Outcome State Fault Refusal := .next (s.skipIf (!s.keyDown (s.reg x)))

/-- Fx07 LD Vx, DT (R116). -/
def execLdVxDT (x : Reg) (s : State) : Host.Outcome State Fault Refusal := .next (s.setReg x s.dt).advance

/-- Fx0A LD Vx, K: with no key down nothing changes, pc included, and the next step runs it again (R117, C2). -/
def execLdVxK (x : Reg) (s : State) : Host.Outcome State Fault Refusal :=
  match s.firstKeyDown with
  | some k => .next (s.setReg x (BitVec.ofNat 8 k.val)).advance
  | none => .next s

/-- Fx15 LD DT, Vx (R118). -/
def execLdDTVx (x : Reg) (s : State) : Host.Outcome State Fault Refusal := .next (s.setDT (s.reg x)).advance

/-- Fx18 LD ST, Vx (R119). -/
def execLdSTVx (x : Reg) (s : State) : Host.Outcome State Fault Refusal := .next (s.setST (s.reg x)).advance

end Sys2Proof.Machine
end

