-- ==== Sys2Proof/Machine/Step.lean ====
section
/-! DEFINITION. One step: fetch, decode, execute (30_encoding.md R66), and where the next instruction is stored. -/
namespace Sys2Proof.Machine

/-- One step (R66). The pulses of the operation before go low; a word that matches a pattern is executed; any other
word is the no-op of R69. The fetch comes before the execution (20_memory.md R61). -/
def step (s : State) : Host.Outcome State Fault Refusal :=
  match decodeWord s.fetchWord with
  | .ok i => exec i s.clearPulses
  | .error _ => .next s.clearPulses.runUndecoded

/-- The state with an instruction, numbered as the opcode table numbers it, stored big-endian at pc (20_memory.md R52).
It stands for the host's ROM load (60_exceptions.md R132; log 16). -/
def State.withFetchWord (s : State) (nbits w : Nat) : State :=
  s.memWriteList s.pc.toNat (bytesOfWord (tableWord nbits w))

end Sys2Proof.Machine
end

