-- ==== Sys2Proof/Machine/HostPort.lean ====
section
/-! DEFINITION. What the host does to the block (60_exceptions.md R130-R139): its seven operations, the construction of
R146, and one clock cycle of the request handshake. -/
namespace Sys2Proof.Machine

/-! ### The operations -/

/-- Memory after reset with a FONT: its 80 bytes at 0x000, 0x00 elsewhere (20_memory.md R48, R49). -/
def fontImage (font : Vector Byte 80) (s : State) : State := s.memWriteList 0 font.toList

/-- Reset (R131, 70_reset_and_hazards.md R144): every piece of state at its reset value. A machine keeps its parameters,
and the index of the free values goes on, so that no value is used twice (log 12). -/
def hostReset (s : State) : State :=
  fontImage s.params.font { State.reset with params := s.params, fresh := s.fresh }

/-- ROM load of a byte at an offset from 0x200; a byte at 3584 or beyond is dropped (R132). -/
def romByte (offset : Nat) (b : Byte) (s : State) : State :=
  if offset < Config.romMax then s.clearPulses.memWrite (Config.progBase + offset) b
  else s.setOut { s.out.quiet with romTruncated := true }

/-- ROM load through the port ld_we, ld_offset[15:0], ld_data (R132). -/
def hostLoad (offset : Word) (b : Byte) (s : State) : State := romByte offset.toNat b s

/-- Key write: Key[k] <- d[k] for all 16 keys at once (R133). -/
def hostKeys (d : BitVec 16) (s : State) : State := s.clearPulses.setKey d

/-- Tick (R134, 44_keys_timers.md R120, R121). -/
def hostTick (s : State) : State :=
  ((s.setDT (countDown s.dt)).setST (countDown s.st)).setOut { s.out.quiet with toneTrigger := s.stActive }

/-- The rows that a frame read shows, row 0 first: those of FB between steps (R136), free values while a step is in
progress (I15; log 20). -/
def State.shownRows (s : State) : List PixelRow :=
  if s.out.busy then (List.range Config.fbHeight).map (Config.busyRow s.fresh) else s.fb.toList

/-- Frame read h_x, h_y -> h_pixel (R136). -/
def State.hPixel (s : State) (y : Fin 32) (x : Fin 64) : Bool := (s.shownRows.getD y.val 0).getLsbD x.val

/-- Rows side by side in one number, the first in the low 64 bits. -/
def packRows : List PixelRow → Nat
  | [] => 0
  | r :: rs => r.toNat + 2 ^ Config.fbWidth * packRows rs

/-- Frame read of the whole vector pixels[2047:0]: bit y*64 + x is FB[y][x] (10_state.md R42, R136). -/
def State.pixels (s : State) : BitVec 2048 := BitVec.ofNat 2048 (packRows s.shownRows)

/-- Sound read st_q (R137). The other two sound outputs are State.stActive and Outputs.toneTrigger. -/
def State.stValue (s : State) : Byte := s.st

/-! ### Construction (70_reset_and_hazards.md R146) -/

/-- The bytes of a ROM loaded at rising offsets. -/
def loadRom : Nat → List Byte → State → State
  | _, [], s => s
  | offset, b :: bs, s => loadRom (offset + 1) bs (romByte offset b s)

/-- Construction from ROM bytes: reset, then loads of the offsets from 0 (R146). -/
def construct (rom : List Byte) (s : State) : State := loadRom 0 rom (hostReset s)

/-! ### Operations in sequence (R130, R138) -/

/-- The seven operations of R130. -/
inductive HostOp where
  | reset
  | load (offset : Word) (data : Byte)
  | keys (d : BitVec 16)
  | tick
  | step
  | frameRead
  | soundRead
deriving DecidableEq, Repr

/-- One whole operation: the state changes as a sequence of these (R138). A read changes nothing (R136, R137). -/
def hostApply (op : HostOp) (s : State) : Host.Outcome State Fault Refusal :=
  match op with
  | .reset => .next (hostReset s)
  | .load offset data => .next (hostLoad offset data s)
  | .keys d => .next (hostKeys d s)
  | .tick => .next (hostTick s)
  | .step => step s
  | .frameRead => .next s
  | .soundRead => .next s

/-- The operations of a list in order, stopping at a fault or refusal. -/
def hostRun : List HostOp → State → Host.Outcome State Fault Refusal
  | [], s => .next s
  | op :: ops, s =>
    match hostApply op s with
    | .next t => hostRun ops t
    | .fault r => .fault r
    | .refused r => .refused r

/-! ### A host that keeps its duties (60_exceptions.md R139) -/

/-- What the host may do after the key write of a frame: tick at any cadence or never, step any number of times, read. -/
inductive FrameOp where
  | tick
  | step
  | frameRead
  | soundRead
deriving DecidableEq, Repr

def FrameOp.toHostOp : FrameOp → HostOp
  | .tick => .tick
  | .step => .step
  | .frameRead => .frameRead
  | .soundRead => .soundRead

/-- One frame of the host: the key state first (duty 4), then what the host chooses. -/
structure HostFrame where
  keysD : BitVec 16
  ops : List FrameOp
deriving DecidableEq, Repr

def HostFrame.toHostOps (f : HostFrame) : List HostOp := .keys f.keysD :: f.ops.map FrameOp.toHostOp

/-- Loads of a ROM's bytes at rising offsets. An offset is 16 bits, so a ROM here has at most 65536 bytes. -/
def romLoads : Nat → List Byte → List HostOp
  | _, [] => []
  | offset, b :: bs => .load (BitVec.ofNat 16 offset) b :: romLoads (offset + 1) bs

/-- The operations of a host that keeps its duties: reset, then the ROM's bytes at offsets from 0 before the first step
(duty 1), then frames. A ROM that failed to load gives no such run (duty 2; I14). -/
def dutifulOps (rom : List Byte) (frames : List HostFrame) : List HostOp :=
  .reset :: romLoads 0 rom ++ frames.flatMap HostFrame.toHostOps

/-! ### One clock cycle (10_state.md R44, 60_exceptions.md R126, R135, R138) -/

/-- The input pins in one cycle. `finish` is not a pin: it says that a step in progress completes in this cycle. It is an
input so that every STEP_LATENCY is allowed (70_reset_and_hazards.md R151; log 15). -/
structure Pins where
  rst : Bool
  ldWe : Bool
  ldOffset : Word
  ldData : Byte
  keysWe : Bool
  keysD : BitVec 16
  tick : Bool
  stepReq : Bool
  randByte : Byte
  finish : Bool
deriving DecidableEq, Repr

/-- A cycle begins: the pulses of the cycle before go low, step_done among them, and free values are new. -/
def State.beginCycle (s : State) : State := (s.setOut { s.out.quiet with stepDone := false }).nextDraw

/-- A step is accepted: busy is 1 until step_done (R135). -/
def State.acceptStep (s : State) : State := s.setOut { s.out with busy := true }

/-- A step's writes are complete: step_done is high and busy low (R135). -/
def State.endStep (s : State) : State := s.setOut { s.out with busy := false, stepDone := true }

/-- A cycle that finds no step in progress: the one request of highest priority, ROM load, key write, tick, step
(R126). -/
def idleCycle (p : Pins) (s : State) : State :=
  if p.ldWe then hostLoad p.ldOffset p.ldData s
  else if p.keysWe then hostKeys p.keysD s
  else if p.tick then hostTick s
  else if p.stepReq then s.acceptStep
  else s

/-- A cycle with a step in progress: every request is ignored (R138). The step is done as a whole in the cycle in which it
completes, with that cycle's rand_byte as its draw. -/
def busyCycle (p : Pins) (s : State) : Host.Outcome State Fault Refusal :=
  if p.finish then
    match step (s.setRandPort (some p.randByte)) with
    | .next t => .next (t.endStep.setRandPort none)
    | .fault r => .fault r
    | .refused r => .refused r
  else .next s

/-- One clock cycle. Reset comes before everything, and abandons a step in progress (R126, R131). -/
def cycle (p : Pins) (s : State) : Host.Outcome State Fault Refusal :=
  if p.rst then .next (hostReset s.beginCycle)
  else if s.out.busy then busyCycle p s.beginCycle
  else .next (idleCycle p s.beginCycle)

end Sys2Proof.Machine
end

