-- ==== Sys2Proof/Safety.lean ====
section
/-! DEFINITION. The terms that claims use: the parts of the state and what a change may touch, the invariant, the end of a
run, and sequences of instructions and ticks. -/
namespace Sys2Proof.Machine

/-- The parts of the state, each as the spec numbers it: what a frame speaks about (00_scope.md R12). -/
inductive StatePart where
  | reg (x : Reg)
  | index
  | pc
  | stackPointer
  | stackEntry (k : Fin 16)
  | delayTimer
  | soundTimer
  | memByte (a : Nat)
  | cell (y : Fin 32) (x : Fin 64)
  | key (k : Fin 16)
  | outputs
  | params
  | randInput
deriving DecidableEq, Repr

/-- A part has the same content in both states. Memory is compared through the read of one byte. -/
def StatePart.same (s t : State) : StatePart → Prop
  | .reg x => t.reg x = s.reg x
  | .index => t.i = s.i
  | .pc => t.pc = s.pc
  | .stackPointer => t.sp = s.sp
  | .stackEntry k => t.stackAt k = s.stackAt k
  | .delayTimer => t.dt = s.dt
  | .soundTimer => t.st = s.st
  | .memByte a => t.memRead a = s.memRead a
  | .cell y x => t.cell y x = s.cell y x
  | .key k => t.keyAt k = s.keyAt k
  | .outputs => t.out = s.out
  | .params => t.params = s.params
  | .randInput => t.randPort = s.randPort ∧ t.fresh = s.fresh

/-- The frame rule (R12): every part outside the set keeps its content. -/
def ChangesOnly (parts : Set StatePart) (s t : State) : Prop := ∀ p, p ∉ parts → p.same s t

/-- The bytes that a store of `count` bytes writes: those at I, I + 1, ..., reduced as every access is (R46, R98). -/
def storedBytes (s : State) (count : Nat) : Set StatePart :=
  {p | ∃ a k, p = .memByte a ∧ k < count ∧ maskAddr a = maskAddr (s.effAddr k)}

/-- The sprite bit that a draw of n rows puts on a cell: the cell is row yy - y0 and column xx - x0 of the sprite, and
bit 7 is the leftmost column (43_display.md R107, R108). -/
def spriteBit (s : State) (x y : Reg) (n : Nat) (yy : Fin 32) (xx : Fin 64) : Bool :=
  let x0 := (s.reg x).toNat % 64
  let y0 := (s.reg y).toNat % 32
  decide (y0 ≤ yy.val ∧ yy.val < y0 + n ∧ x0 ≤ xx.val ∧ xx.val < x0 + 8) &&
    (s.memRead (s.i.toNat + (yy.val - y0))).getLsbD (7 - (xx.val - x0))

/-- The instructions that write V[r] (10_state.md R18, R19): those whose destination it is, Fx65 over a range, and those
that write VF as a flag. -/
def writesReg (r : Reg) : Instr → Bool
  | .ldImm x _ | .addImm x _ | .rnd x _ => decide (r = x)
  | .ldReg x _ | .orReg x _ | .andReg x _ | .xorReg x _ => decide (r = x)
  | .addReg x _ | .subReg x _ | .shr x _ | .subn x _ | .shl x _ => decide (r = x ∨ r = vf)
  | .drw _ _ _ => decide (r = vf)
  | .ldVxDT x | .ldVxK x => decide (r = x)
  | .loadRegs x => decide (r ≤ x)
  | .cls | .ret | .jp _ | .call _ | .seImm _ _ | .sneImm _ _ | .seReg _ _ | .sneReg _ _ | .jpV0 _ | .skp _ | .sknp _ => false
  | .ldI _ | .addI _ | .ldF _ | .ldB _ | .storeRegs _ | .ldDTVx _ | .ldSTVx _ => false

/-- The diagnostics of one step (10_state.md R37). -/
def Outputs.diagCount (o : Outputs) : Nat :=
  o.diagUndecoded.toNat + o.diagCallDropped.toNat + o.diagReturnDropped.toNat

/-- The invariant of a step and of every host operation: memory is in its canonical form; Stack[0] holds its reset value,
which no push writes (10_state.md R27); and at most one diagnostic is high (60_exceptions.md R126). -/
def StateInv (s : State) : Prop := Memory.wf s.mem = true ∧ s.stackAt 0 = 0 ∧ s.out.diagCount ≤ 1

/-- The word at pc is a jump to its own address: the end of a run (70_reset_and_hazards.md R152). -/
def AtSelfJump (s : State) : Prop := ∃ nnn, decodeWord s.fetchWord = .ok (.jp nnn) ∧ nnn.toNat = s.pc.toNat

/-- The instructions of a list in order, stopping at a fault or refusal. -/
def execAll : List Instr → State → Host.Outcome State Fault Refusal
  | [], s => .next s
  | i :: is, s =>
    match exec i s with
    | .next t => execAll is t
    | .fault r => .fault r
    | .refused r => .refused r

/-- A number of ticks, one after another. -/
def tickTimes : Nat → State → State
  | 0, s => s
  | n + 1, s => tickTimes n (hostTick s)

end Sys2Proof.Machine
end

