-- ==== Sys2Proof/Certificates/Slice0/Obligations.lean ====
section
/-! DEFINITION. The statements for the provers. In a docstring "the model's choice" and "the spec's decision D<n>" mark a
clause that rests on no rule of the source; "log <n>" is notes/assumptions/<n>.md. -/

open Sys2Proof Sys2Proof.Machine

/-! ### Encoding -/

/-- Every well-formed instruction is what its own word decodes to, at every value of every operand, and its two bytes decode
in front of any bytes (R63, R67). -/
def Obligations.DecodeOfEncodeIsIdentity : Prop :=
  ∀ (i : Instr) (rest : List Byte), i.wellFormed = true →
    decodeWord (encode i) = .ok i ∧ decode (encodeBytes i ++ rest) = .ok (i, rest)

/-- A word that decodes to an instruction is that instruction's own word, and the instruction is well-formed: no bit of a
decoded word is dropped. Words that differ in an ignored y, as 8106 and 8126 do, have different instructions here, though
those do the same (R93, R95). That a word must match every fixed digit is the spec's decision D10 (R68, log 10). -/
def Obligations.EncodeOfDecodeIsIdentity : Prop :=
  ∀ (w : Word) (i : Instr), decodeWord w = .ok i → i.wellFormed = true ∧ encode i = w

/-- The undecoded words are exactly those of R70's table (which the spec marks as derived, with the decision D10). -/
def Obligations.UndecodedWordsAreExactlyTheTable : Prop :=
  ∀ w : Word, (∃ e, decodeWord w = .error e) ↔
    (w.toNat / 0x1000 = 0x0 ∧ w.toNat ≠ 0x00E0 ∧ w.toNat ≠ 0x00EE) ∨
    (w.toNat / 0x1000 = 0x5 ∧ w.toNat % 16 ≠ 0) ∨
    (w.toNat / 0x1000 = 0x8 ∧ w.toNat % 16 ∈ [0x8, 0x9, 0xA, 0xB, 0xC, 0xD, 0xF]) ∨
    (w.toNat / 0x1000 = 0x9 ∧ w.toNat % 16 ≠ 0) ∨
    (w.toNat / 0x1000 = 0xE ∧ w.toNat % 256 ∉ [0x9E, 0xA1]) ∨
    (w.toNat / 0x1000 = 0xF ∧ w.toNat % 256 ∉ [0x07, 0x0A, 0x15, 0x18, 0x1E, 0x29, 0x33, 0x55, 0x65])

/-- Words written out from R67 decode to their instructions. -/
def Obligations.SampleWordsDecode : Prop :=
  decodeWord 0x00E0 = .ok .cls ∧ decodeWord 0x1ABC = .ok (.jp 0xABC) ∧ decodeWord 0x3122 = .ok (.seImm 1 0x22) ∧
  decodeWord 0x8124 = .ok (.addReg 1 2) ∧ decodeWord 0xA123 = .ok (.ldI 0x123) ∧ decodeWord 0xD015 = .ok (.drw 0 1 5) ∧
  decodeWord 0xE19E = .ok (.skp 1) ∧ decodeWord 0xF20A = .ok (.ldVxK 2)

/-! ### The step -/

/-- The fetch is big-endian: the byte at pc is the high byte of the instruction word and the byte at pc + 1 the low one
(R52). -/
def Obligations.FetchIsBigEndian : Prop :=
  ∀ s : State, s.fetchWord.toNat = 256 * (s.memRead s.pc.toNat).toNat + (s.memRead (s.pc.toNat + 1)).toNat

/-- When the two bytes at pc, reduced mod 4096, decode to an instruction, the step is that instruction's execution, on the
state whose diagnostic and tone pulses of the operation before have gone low and which is otherwise the same (R66; the
pulses are the model's choice, log 14; the reduction is the spec's decision D3). -/
def Obligations.StepRunsTheDecodedInstruction : Prop :=
  ∀ (s : State) (i : Instr), i.wellFormed = true →
    decode [Memory.get s.mem (s.pc.toNat % 4096), Memory.get s.mem ((s.pc.toNat + 1) % 4096)] = .ok (i, []) →
    step s = exec i s.clearPulses ∧ ChangesOnly {.outputs} s s.clearPulses ∧
    s.clearPulses.out = { s.out with
      diagUndecoded := false, diagCallDropped := false, diagReturnDropped := false, toneTrigger := false }

/-- An undecoded word is a no-op that advances pc by 2 mod 2^16, raises diag_undecoded for the step, traps nowhere and
changes no other state, and rom_truncated stays (R37, R69). -/
def Obligations.UndecodedWordOnlyAdvances : Prop :=
  ∀ (s : State) (e : Reject), decodeWord s.fetchWord = .error e →
    ∃ t, step s = .next t ∧ t.pc.toNat = (s.pc.toNat + 2) % 65536 ∧ t.out.diagUndecoded = true ∧
      t.out.romTruncated = s.out.romTruncated ∧ ChangesOnly {.pc, .outputs} s t

/-- Every step has a successor, except one case of a parameter value that is not the default: 00EE with SP = 0 under
POP_EMPTY_POLICY = fault, which stops with ReturnUnderflow(pc) (R66, R123, R152; the policy is the spec's decision D6). -/
def Obligations.StepStopsOnlyOnReturnUnderflow : Prop :=
  ∀ s : State, (∃ t, step s = .next t) ∨
    (s.params.popEmpty = .fault ∧ s.sp = 0 ∧ s.fetchWord = 0x00EE ∧ step s = .fault (.returnUnderflow s.pc))

/-- The invariant is kept by every step from every state: memory stays canonical, Stack[0] stays 0 (R27, which the spec
derives), and at most one diagnostic is high (R126). -/
def Obligations.StepKeepsInvariant : Prop :=
  ∀ s t : State, StateInv s → step s = .next t → StateInv t

/-- The state after reset meets the invariant. -/
def Obligations.ResetMeetsInvariant : Prop := StateInv State.reset

/-- Every host operation and every clock cycle keeps the invariant, whatever the pins (R130, R138). -/
def Obligations.HostOperationsKeepInvariant : Prop :=
  (∀ (op : HostOp) (s t : State), StateInv s → hostApply op s = .next t → StateInv t) ∧
  (∀ (p : Pins) (s t : State), StateInv s → cycle p s = .next t → StateInv t)

/-- A step changes each part of the state but pc only where its word is one of the instructions the spec names as that
part's writers: the V registers and VF (R18, R19), I (R20), memory (R56), the frame buffer (R105), the stack and SP (R28),
DT (R29), ST (R30); and it never changes the keys (R31). Of the outputs it changes the pulses alone: rom_truncated is sticky
(R124), and a diagnostic is high after a step exactly when the step met its condition (R124). That nothing else is written
is the spec's decision D2. That the pulses go low at the next step is the model's choice of log 14, that busy and step_done
stay that of log 15; that the parameters never change and that Cxnn alone takes a draw (R36) speak of the model's own
fields, log 21 and log 12. -/
def Obligations.StepWritesEachPartOnlyByItsWriters : Prop :=
  ∀ s t : State, step s = .next t →
    t.key = s.key ∧ t.params = s.params ∧
    t.out = { s.out.quiet with
      diagUndecoded := t.out.diagUndecoded
      diagCallDropped := t.out.diagCallDropped
      diagReturnDropped := t.out.diagReturnDropped } ∧
    (t.out.diagUndecoded = true ↔ ∃ e, decodeWord s.fetchWord = .error e) ∧
    (t.out.diagCallDropped = true ↔ (∃ nnn, decodeWord s.fetchWord = .ok (.call nnn)) ∧ s.sp = 15) ∧
    (t.out.diagReturnDropped = true ↔ decodeWord s.fetchWord = .ok .ret ∧ s.sp = 0) ∧
    (t.randPort ≠ s.randPort ∨ t.fresh ≠ s.fresh → ∃ x nn, decodeWord s.fetchWord = .ok (.rnd x nn)) ∧
    (∀ r : Reg, t.reg r ≠ s.reg r → ∃ i, decodeWord s.fetchWord = .ok i ∧ writesReg r i = true) ∧
    (t.i ≠ s.i → (∃ nnn, decodeWord s.fetchWord = .ok (.ldI nnn)) ∨ (∃ x, decodeWord s.fetchWord = .ok (.addI x)) ∨
      ∃ x, decodeWord s.fetchWord = .ok (.ldF x)) ∧
    (t.mem ≠ s.mem → (∃ x, decodeWord s.fetchWord = .ok (.ldB x)) ∨ ∃ x, decodeWord s.fetchWord = .ok (.storeRegs x)) ∧
    (t.fb ≠ s.fb → decodeWord s.fetchWord = .ok .cls ∨ ∃ x y n, decodeWord s.fetchWord = .ok (.drw x y n)) ∧
    (t.sp ≠ s.sp → decodeWord s.fetchWord = .ok .ret ∨ ∃ nnn, decodeWord s.fetchWord = .ok (.call nnn)) ∧
    (t.stack ≠ s.stack → ∃ nnn, decodeWord s.fetchWord = .ok (.call nnn)) ∧
    (t.dt ≠ s.dt → ∃ x, decodeWord s.fetchWord = .ok (.ldDTVx x)) ∧
    (t.st ≠ s.st → ∃ x, decodeWord s.fetchWord = .ok (.ldSTVx x))

/-- No instruction reads ST: two states that differ in ST alone step to states that differ in ST alone at most (R30). -/
def Obligations.NoInstructionReadsTheSoundTimer : Prop :=
  ∀ (s : State) (b : Byte),
    (∀ u, step s = .next u → ∃ u', step (s.setST b) = .next u' ∧ u'.setST 0 = u.setST 0) ∧
    (∀ r, step s = .fault r → step (s.setST b) = .fault r)

/-- The outputs never change any other state: two states that differ in the outputs alone step to states that differ in the
outputs alone at most. Of the four diagnostics R37 says so (with the spec's decision D19). That the outputs stand in the
state, tone_trigger and step_done among them, is the model's choice of log 14, and that a step does not look at busy is
that of log 15. -/
def Obligations.OutputsNeverInfluenceTheState : Prop :=
  ∀ (s : State) (o : Outputs),
    (∀ u, step s = .next u → ∃ u', step (s.setOut o) = .next u' ∧ u'.setOut .low = u.setOut .low) ∧
    (∀ r, step s = .fault r → step (s.setOut o) = .fault r)

/-- At a self-jump a step changes no state but the pulses of the operation before, and is at the self-jump again: the end of
a run (R152, the spec's decision D24; the pulses are the model's choice, log 14). -/
def Obligations.SelfJumpChangesNothing : Prop :=
  ∀ s : State, AtSelfJump s → ∃ t, step s = .next t ∧ ChangesOnly {.outputs} s t ∧ t.out = s.out.quiet ∧ AtSelfJump t

/-! ### Control transfer -/

/-- 1nnn sets pc to nnn, zero-extended, and nothing is added (R76). -/
def Obligations.JumpSetsPc : Prop :=
  ∀ (nnn : Addr) (s : State),
    decodeWord (BitVec.ofNat 16 (0x1000 + nnn.toNat)) = .ok (.jp nnn) ∧
    ∃ t, exec (.jp nnn) s = .next t ∧ t.pc.toNat = nnn.toNat ∧ t.reg vf = s.reg vf

/-- Bnnn sets pc to nnn + V[0], not reduced mod 4096 (R82). -/
def Obligations.JumpWithOffsetAddsV0 : Prop :=
  ∀ (nnn : Addr) (s : State),
    decodeWord (BitVec.ofNat 16 (0xB000 + nnn.toNat)) = .ok (.jpV0 nnn) ∧
    ∃ t, exec (.jpV0 nnn) s = .next t ∧ t.pc.toNat = nnn.toNat + (s.reg 0).toNat ∧ t.reg vf = s.reg vf

/-- 2nnn pushes pc + 2 mod 2^16 by pre-increment and jumps to nnn; at SP = 15 it is dropped: stack and SP unchanged, pc + 2,
diag_call_dropped (R25, R77; that pc advances is the spec's decision D5). -/
def Obligations.CallPushesTheReturnAddress : Prop :=
  ∀ (nnn : Addr) (s : State),
    decodeWord (BitVec.ofNat 16 (0x2000 + nnn.toNat)) = .ok (.call nnn) ∧
    (s.sp.toNat < 15 → ∃ t, exec (.call nnn) s = .next t ∧ t.sp.toNat = s.sp.toNat + 1 ∧
      t.pc.toNat = nnn.toNat ∧
      (∀ k : Fin 16, k.val = s.sp.toNat + 1 → (t.stackAt k).toNat = (s.pc.toNat + 2) % 65536) ∧
      (∀ k : Fin 16, k.val ≠ s.sp.toNat + 1 → t.stackAt k = s.stackAt k)) ∧
    (s.sp.toNat = 15 → ∃ t, exec (.call nnn) s = .next t ∧ t.sp = s.sp ∧ (∀ k, t.stackAt k = s.stackAt k) ∧
      t.pc.toNat = (s.pc.toNat + 2) % 65536 ∧ t.out.diagCallDropped = true)

/-- 00EE sets pc to Stack[SP] and takes one from SP, clearing no entry; with SP = 0 it follows POP_EMPTY_POLICY: drop
advances pc and raises diag_return_dropped, fault stops with ReturnUnderflow(pc) (R26, R75; the policy is the spec's
decision D6). -/
def Obligations.ReturnPopsTheTarget : Prop :=
  decodeWord 0x00EE = .ok .ret ∧
  ∀ s : State,
    (s.sp ≠ 0 → ∃ t, exec .ret s = .next t ∧ (∀ k : Fin 16, k.val = s.sp.toNat → t.pc = s.stackAt k) ∧
      t.sp.toNat = s.sp.toNat - 1 ∧ ∀ k, t.stackAt k = s.stackAt k) ∧
    (s.sp = 0 → s.params.popEmpty = .drop → ∃ t, exec .ret s = .next t ∧ t.sp = 0 ∧
      t.pc.toNat = (s.pc.toNat + 2) % 65536 ∧ t.out.diagReturnDropped = true) ∧
    (s.sp = 0 → s.params.popEmpty = .fault → exec .ret s = .fault (.returnUnderflow s.pc))

/-- 3xnn skips the next word when V[x] = nn and 4xnn when V[x] != nn; otherwise they advance (R78, R79). -/
def Obligations.SkipsComparingWithAByte : Prop :=
  ∀ (x : Reg) (nn : Byte) (s : State),
    decodeWord (BitVec.ofNat 16 (0x3000 + 0x100 * x.val + nn.toNat)) = .ok (.seImm x nn) ∧
    decodeWord (BitVec.ofNat 16 (0x4000 + 0x100 * x.val + nn.toNat)) = .ok (.sneImm x nn) ∧
    (∃ t, exec (.seImm x nn) s = .next t ∧ t.reg vf = s.reg vf ∧
      t.pc.toNat = (s.pc.toNat + if s.reg x = nn then 4 else 2) % 65536) ∧
    (∃ t, exec (.sneImm x nn) s = .next t ∧ t.reg vf = s.reg vf ∧
      t.pc.toNat = (s.pc.toNat + if s.reg x = nn then 2 else 4) % 65536)

/-- 5xy0 skips the next word when V[x] = V[y] and 9xy0 when V[x] != V[y]; otherwise they advance (R80, R81). That the same
words with another low digit are undecoded is the spec's decision D10 (R68, log 10). -/
def Obligations.SkipsComparingRegisters : Prop :=
  ∀ (x y : Reg) (s : State),
    decodeWord (BitVec.ofNat 16 (0x5000 + 0x100 * x.val + 0x10 * y.val)) = .ok (.seReg x y) ∧
    decodeWord (BitVec.ofNat 16 (0x9000 + 0x100 * x.val + 0x10 * y.val)) = .ok (.sneReg x y) ∧
    (∀ n, 0 < n → n < 16 →
      (∃ e, decodeWord (BitVec.ofNat 16 (0x5000 + 0x100 * x.val + 0x10 * y.val + n)) = .error e) ∧
      (∃ e, decodeWord (BitVec.ofNat 16 (0x9000 + 0x100 * x.val + 0x10 * y.val + n)) = .error e)) ∧
    (∃ t, exec (.seReg x y) s = .next t ∧ t.reg vf = s.reg vf ∧
      t.pc.toNat = (s.pc.toNat + if s.reg x = s.reg y then 4 else 2) % 65536) ∧
    (∃ t, exec (.sneReg x y) s = .next t ∧ t.reg vf = s.reg vf ∧
      t.pc.toNat = (s.pc.toNat + if s.reg x = s.reg y then 2 else 4) % 65536)

/-- Calls nest and return in order: any number of calls that the stack has room for, followed by as many returns, comes
back to the word after the first call, with SP as before and the live entries unchanged (R24, R25, R26). -/
def Obligations.CallsAndReturnsNest : Prop :=
  ∀ (target : Addr) (targets : List Addr) (s : State), s.sp.toNat + (target :: targets).length ≤ 15 →
    ∃ t, execAll ((target :: targets).map .call ++ List.replicate (target :: targets).length .ret) s = .next t ∧
      t.pc.toNat = (s.pc.toNat + 2) % 65536 ∧ t.sp = s.sp ∧
      ChangesOnly {p | p = .pc ∨ ∃ k : Fin 16, p = .stackEntry k ∧ s.sp.toNat < k.val} s t

/-! ### Registers and arithmetic -/

/-- 6xnn sets V[x] to nn; VF changes only when x = 0xF (R85). -/
def Obligations.LoadByteSetsVx : Prop :=
  ∀ (x : Reg) (nn : Byte) (s : State),
    decodeWord (BitVec.ofNat 16 (0x6000 + 0x100 * x.val + nn.toNat)) = .ok (.ldImm x nn) ∧
    ∃ t, exec (.ldImm x nn) s = .next t ∧ t.reg x = nn ∧ t.pc.toNat = (s.pc.toNat + 2) % 65536 ∧
      (x ≠ 15 → t.reg 15 = s.reg 15)

/-- 7xnn adds nn to V[x] mod 256 and writes no flag (R86). -/
def Obligations.AddByteWrapsWithoutFlag : Prop :=
  ∀ (x : Reg) (nn : Byte) (s : State),
    decodeWord (BitVec.ofNat 16 (0x7000 + 0x100 * x.val + nn.toNat)) = .ok (.addImm x nn) ∧
    ∃ t, exec (.addImm x nn) s = .next t ∧ (t.reg x).toNat = ((s.reg x).toNat + nn.toNat) % 256 ∧
      t.pc.toNat = (s.pc.toNat + 2) % 65536 ∧ (x ≠ 15 → t.reg 15 = s.reg 15)

/-- 8xy0 copies V[y] to V[x], and 8xy1, 8xy2, 8xy3 give the OR, AND and XOR of V[x] and V[y], bit by bit; none of them
writes VF but as V[x] (R87, R88, R89, R90). That VF is left is the spec's decision D2 (N22, log 11). -/
def Obligations.CopyAndBitwiseInstructions : Prop :=
  ∀ (x y : Reg) (s : State),
    decodeWord (BitVec.ofNat 16 (0x8000 + 0x100 * x.val + 0x10 * y.val)) = .ok (.ldReg x y) ∧
    decodeWord (BitVec.ofNat 16 (0x8001 + 0x100 * x.val + 0x10 * y.val)) = .ok (.orReg x y) ∧
    decodeWord (BitVec.ofNat 16 (0x8002 + 0x100 * x.val + 0x10 * y.val)) = .ok (.andReg x y) ∧
    decodeWord (BitVec.ofNat 16 (0x8003 + 0x100 * x.val + 0x10 * y.val)) = .ok (.xorReg x y) ∧
    (∃ t, exec (.ldReg x y) s = .next t ∧ t.reg x = s.reg y ∧ t.pc.toNat = (s.pc.toNat + 2) % 65536 ∧
      (x ≠ 15 → t.reg 15 = s.reg 15)) ∧
    (∃ t, exec (.orReg x y) s = .next t ∧
      (∀ k, (t.reg x).getLsbD k = ((s.reg x).getLsbD k || (s.reg y).getLsbD k)) ∧
      t.pc.toNat = (s.pc.toNat + 2) % 65536 ∧ (x ≠ 15 → t.reg 15 = s.reg 15)) ∧
    (∃ t, exec (.andReg x y) s = .next t ∧
      (∀ k, (t.reg x).getLsbD k = ((s.reg x).getLsbD k && (s.reg y).getLsbD k)) ∧
      t.pc.toNat = (s.pc.toNat + 2) % 65536 ∧ (x ≠ 15 → t.reg 15 = s.reg 15)) ∧
    (∃ t, exec (.xorReg x y) s = .next t ∧
      (∀ k, (t.reg x).getLsbD k = ((s.reg x).getLsbD k ^^ (s.reg y).getLsbD k)) ∧
      t.pc.toNat = (s.pc.toNat + 2) % 65536 ∧ (x ≠ 15 → t.reg 15 = s.reg 15))

/-- 8xy4: V[x] is the sum mod 256 of the old operands, and VF is 1 on a sum above 255, else 0; for x = 0xF the sum is what
VF ends with (R91; the order of the two writes is the spec's decision D1). -/
def Obligations.AddWritesCarry : Prop :=
  ∀ (x y : Reg) (s : State),
    decodeWord (BitVec.ofNat 16 (0x8004 + 0x100 * x.val + 0x10 * y.val)) = .ok (.addReg x y) ∧
    ∃ t, exec (.addReg x y) s = .next t ∧ (t.reg x).toNat = ((s.reg x).toNat + (s.reg y).toNat) % 256 ∧
      (x ≠ 15 → (t.reg 15).toNat = if (s.reg x).toNat + (s.reg y).toNat > 255 then 1 else 0) ∧
      t.pc.toNat = (s.pc.toNat + 2) % 65536

/-- 8xy5: the flag f is 1 when V[x] >= V[y], else 0, and is written before V[x] and V[y] are read for the difference: the
four cases of R92 (the order is the spec's decision D1). -/
def Obligations.SubtractWritesNoBorrow : Prop :=
  ∀ (x y : Reg) (s : State) (f : Nat), f = (if (s.reg x).toNat ≥ (s.reg y).toNat then 1 else 0) →
    decodeWord (BitVec.ofNat 16 (0x8005 + 0x100 * x.val + 0x10 * y.val)) = .ok (.subReg x y) ∧
    ∃ t, exec (.subReg x y) s = .next t ∧ t.pc.toNat = (s.pc.toNat + 2) % 65536 ∧
      (x ≠ 15 → y ≠ 15 → (t.reg x).toNat = (256 + (s.reg x).toNat - (s.reg y).toNat) % 256 ∧ (t.reg 15).toNat = f) ∧
      (x ≠ 15 → y = 15 → (t.reg x).toNat = (256 + (s.reg x).toNat - f) % 256 ∧ (t.reg 15).toNat = f) ∧
      (x = 15 → y ≠ 15 → (t.reg 15).toNat = (256 + f - (s.reg y).toNat) % 256) ∧
      (x = 15 → y = 15 → (t.reg 15).toNat = 0)

/-- 8xy7: the flag f is 1 when V[y] >= V[x], else 0, and is written before V[y] and V[x] are read for the difference: the
four cases of R94 (the order is the spec's decision D1). -/
def Obligations.ReverseSubtractWritesNoBorrow : Prop :=
  ∀ (x y : Reg) (s : State) (f : Nat), f = (if (s.reg y).toNat ≥ (s.reg x).toNat then 1 else 0) →
    decodeWord (BitVec.ofNat 16 (0x8007 + 0x100 * x.val + 0x10 * y.val)) = .ok (.subn x y) ∧
    ∃ t, exec (.subn x y) s = .next t ∧ t.pc.toNat = (s.pc.toNat + 2) % 65536 ∧
      (x ≠ 15 → y ≠ 15 → (t.reg x).toNat = (256 + (s.reg y).toNat - (s.reg x).toNat) % 256 ∧ (t.reg 15).toNat = f) ∧
      (x ≠ 15 → y = 15 → (t.reg x).toNat = (256 + f - (s.reg x).toNat) % 256 ∧ (t.reg 15).toNat = f) ∧
      (x = 15 → y ≠ 15 → (t.reg 15).toNat = (256 + (s.reg y).toNat - f) % 256) ∧
      (x = 15 → y = 15 → (t.reg 15).toNat = 0)

/-- 8xy6 and 8xyE shift V[x] by one bit, shift in 0, and leave the old bit 0, or bit 7, in VF; for x = 0xF the result
overwrites the flag (R93, R95; the order is the spec's decision D1). V[y] plays no part: the results do not name it. -/
def Obligations.ShiftsWriteTheBitShiftedOut : Prop :=
  ∀ (x y : Reg) (s : State),
    decodeWord (BitVec.ofNat 16 (0x8006 + 0x100 * x.val + 0x10 * y.val)) = .ok (.shr x y) ∧
    decodeWord (BitVec.ofNat 16 (0x800E + 0x100 * x.val + 0x10 * y.val)) = .ok (.shl x y) ∧
    (∃ t, exec (.shr x y) s = .next t ∧ t.pc.toNat = (s.pc.toNat + 2) % 65536 ∧
      (x ≠ 15 → (t.reg x).toNat = (s.reg x).toNat / 2 ∧ (t.reg 15).toNat = (s.reg x).toNat % 2) ∧
      (x = 15 → (t.reg 15).toNat = 0)) ∧
    (∃ t, exec (.shl x y) s = .next t ∧ t.pc.toNat = (s.pc.toNat + 2) % 65536 ∧
      (x ≠ 15 → (t.reg x).toNat = 2 * (s.reg x).toNat % 256 ∧ (t.reg 15).toNat = (s.reg x).toNat / 128) ∧
      (x = 15 → (t.reg 15).toNat = 2 * ((s.reg x).toNat / 128)))

/-- Cxnn sets V[x] to the draw masked by nn, for every byte that the input can present, and for some byte where the input is
left free; it uses up the one draw, so that the next Cxnn has another, and changes nothing else (R36, R96; the draw is the spec's decision D14 and the model's
free value, log 12; the frame is the spec's decision D2). -/
def Obligations.RandomByteIsMasked : Prop :=
  ∀ (x : Reg) (nn : Byte) (s : State),
    decodeWord (BitVec.ofNat 16 (0xC000 + 0x100 * x.val + nn.toNat)) = .ok (.rnd x nn) ∧
    (∀ r : Byte, ∃ t, exec (.rnd x nn) (s.setRandPort (some r)) = .next t ∧
      (∀ k, (t.reg x).getLsbD k = (r.getLsbD k && nn.getLsbD k)) ∧ t.pc.toNat = (s.pc.toNat + 2) % 65536 ∧
      t.randPort = none ∧ t.fresh = s.fresh + 1) ∧
    (∃ (r : Byte) (t : State), exec (.rnd x nn) s = .next t ∧
      (∀ k, (t.reg x).getLsbD k = (r.getLsbD k && nn.getLsbD k)) ∧ t.pc.toNat = (s.pc.toNat + 2) % 65536 ∧
      t.randPort = none ∧ t.fresh = s.fresh + 1 ∧ ChangesOnly {.reg x, .pc, .randInput} s t)

/-! ### Index register and memory -/

/-- Annn sets I to nnn, zero-extended (R99). -/
def Obligations.LoadIndexSetsI : Prop :=
  ∀ (nnn : Addr) (s : State),
    decodeWord (BitVec.ofNat 16 (0xA000 + nnn.toNat)) = .ok (.ldI nnn) ∧
    ∃ t, exec (.ldI nnn) s = .next t ∧ t.i.toNat = nnn.toNat ∧ t.pc.toNat = (s.pc.toNat + 2) % 65536 ∧
      t.reg vf = s.reg vf

/-- Fx1E adds V[x] to I mod 2^16, with no masking to 12 bits and no flag (R100). -/
def Obligations.AddToIndexWrapsAt16Bits : Prop :=
  ∀ (x : Reg) (s : State),
    decodeWord (BitVec.ofNat 16 (0xF01E + 0x100 * x.val)) = .ok (.addI x) ∧
    ∃ t, exec (.addI x) s = .next t ∧ t.i.toNat = (s.i.toNat + (s.reg x).toNat) % 65536 ∧
      t.pc.toNat = (s.pc.toNat + 2) % 65536 ∧ t.reg vf = s.reg vf

/-- Fx29 sets I to V[x] * 5, for all 8 bits of V[x] (R101). -/
def Obligations.GlyphAddressIsFiveTimesVx : Prop :=
  ∀ (x : Reg) (s : State),
    decodeWord (BitVec.ofNat 16 (0xF029 + 0x100 * x.val)) = .ok (.ldF x) ∧
    ∃ t, exec (.ldF x) s = .next t ∧ t.i.toNat = (s.reg x).toNat * 5 ∧ t.pc.toNat = (s.pc.toNat + 2) % 65536 ∧
      t.reg vf = s.reg vf

/-- Fx33 stores the hundreds, tens and ones of V[x] at I, I + 1 and I + 2, and leaves I (R102; the reduction of the
addresses mod 4096 is the spec's decision D3). The premise is the invariant's clause on memory. -/
def Obligations.BcdStoresThreeDigits : Prop :=
  ∀ (x : Reg) (s : State), Memory.wf s.mem = true →
    decodeWord (BitVec.ofNat 16 (0xF033 + 0x100 * x.val)) = .ok (.ldB x) ∧
    ∃ t, exec (.ldB x) s = .next t ∧
      (t.memRead s.i.toNat).toNat = (s.reg x).toNat / 100 ∧
      (t.memRead (s.i.toNat + 1)).toNat = (s.reg x).toNat / 10 % 10 ∧
      (t.memRead (s.i.toNat + 2)).toNat = (s.reg x).toNat % 10 ∧
      t.i = s.i ∧ t.pc.toNat = (s.pc.toNat + 2) % 65536

/-- Fx55 stores V[k] at I + k for each k up to x, and leaves I (R103; the reduction is the spec's decision D3). The premise
is the invariant's clause on memory. -/
def Obligations.StoreRegistersFillsMemory : Prop :=
  ∀ (x : Reg) (s : State), Memory.wf s.mem = true →
    decodeWord (BitVec.ofNat 16 (0xF055 + 0x100 * x.val)) = .ok (.storeRegs x) ∧
    ∃ t, exec (.storeRegs x) s = .next t ∧ (∀ k : Reg, k ≤ x → t.memRead (s.i.toNat + k.val) = s.reg k) ∧
      t.i = s.i ∧ t.pc.toNat = (s.pc.toNat + 2) % 65536

/-- Fx65 loads V[k] from I + k for each k up to x, and leaves I, the registers above x and all of memory (R104; the reduction
is the spec's decision D3, the frame D2). -/
def Obligations.LoadRegistersReadsMemory : Prop :=
  ∀ (x : Reg) (s : State),
    decodeWord (BitVec.ofNat 16 (0xF065 + 0x100 * x.val)) = .ok (.loadRegs x) ∧
    ∃ t, exec (.loadRegs x) s = .next t ∧ (∀ k : Reg, k ≤ x → t.reg k = s.memRead (s.i.toNat + k.val)) ∧
      t.pc.toNat = (s.pc.toNat + 2) % 65536 ∧ ChangesOnly {p | p = .pc ∨ ∃ k : Reg, p = .reg k ∧ k ≤ x} s t

/-- Fx55 and then Fx65 at the same I, whatever the registers hold in between, restores V[0] to V[x], near the end of memory
too, and I is unchanged (R104's corner case, the source's round-trip property S5; the reduction is the spec's decision
D3). -/
def Obligations.StoreThenLoadRestoresRegisters : Prop :=
  ∀ (x : Reg) (s : State) (between : Vector Byte 16), Memory.wf s.mem = true →
    ∃ t u, exec (.storeRegs x) s = .next t ∧ exec (.loadRegs x) { t with v := between } = .next u ∧
      (∀ k : Reg, k ≤ x → u.reg k = s.reg k) ∧ u.i = s.i

/-- A store over the next instruction word, which is at pc + 2, is what the next step fetches: whichever byte of Fx55's
registers or of Fx33's digits falls on the word's first byte is its high byte, and on its second its low byte, for a store
that covers the word or one byte of it (R61, which the spec derives; the reduction is the spec's decision D3). The premise
is the invariant's clause on memory. -/
def Obligations.StoredInstructionIsFetchedNext : Prop :=
  ∀ (x : Reg) (s : State), Memory.wf s.mem = true →
    (∃ t, exec (.storeRegs x) s = .next t ∧ ∀ k : Reg, k ≤ x →
      ((s.i.toNat + k.val) % 4096 = (s.pc.toNat + 2) % 4096 → t.fetchWord.toNat / 256 = (s.reg k).toNat) ∧
      ((s.i.toNat + k.val) % 4096 = (s.pc.toNat + 3) % 4096 → t.fetchWord.toNat % 256 = (s.reg k).toNat)) ∧
    (∃ t, exec (.ldB x) s = .next t ∧ ∀ k : Nat, k < 3 →
      ((s.i.toNat + k) % 4096 = (s.pc.toNat + 2) % 4096 →
        t.fetchWord.toNat / 256 = (s.reg x).toNat / 10 ^ (2 - k) % 10) ∧
      ((s.i.toNat + k) % 4096 = (s.pc.toNat + 3) % 4096 →
        t.fetchWord.toNat % 256 = (s.reg x).toNat / 10 ^ (2 - k) % 10))

/-! ### Display -/

/-- 00E0 sets every cell to 0, advances pc and leaves VF (R106). -/
def Obligations.ClearUnsetsEveryCell : Prop :=
  decodeWord 0x00E0 = .ok .cls ∧
  ∀ s : State, ∃ t, exec .cls s = .next t ∧ (∀ y x, t.cell y x = false) ∧
    t.pc.toNat = (s.pc.toNat + 2) % 65536 ∧ t.reg vf = s.reg vf

/-- Dxyn toggles exactly the cells under a 1-bit of the sprite: rows from V[y] mod 32, columns from V[x] mod 64, row r from
memory at I + r, clipped at the right and the bottom edge, never wrapped (R107, R109; the leftmost column is bit 7 by the
spec's decision D7, log 7; the reduction is D3, log 5; for x or y = 0xF the position is read before VF is reset by D1,
log 6). It leaves I and advances pc. -/
def Obligations.DrawTogglesTheSpritesCells : Prop :=
  ∀ (x y : Reg) (n : Nat) (s : State), n < 16 →
    decodeWord (BitVec.ofNat 16 (0xD000 + 0x100 * x.val + 0x10 * y.val + n)) = .ok (.drw x y n) ∧
    ∃ t, exec (.drw x y n) s = .next t ∧
      (∀ yy xx, t.cell yy xx = (s.cell yy xx ^^ spriteBit s x y n yy xx)) ∧
      t.i = s.i ∧ t.pc.toNat = (s.pc.toNat + 2) % 65536

/-- After Dxyn VF is 1 when a 1-bit of the sprite that is on the screen met a set cell, and 0 otherwise, whatever VF held
before (R107, R110; bit order D7, the reduction D3, the position read before VF is reset D1). -/
def Obligations.DrawFlagsACollision : Prop :=
  ∀ (x y : Reg) (n : Nat) (s : State), n < 16 →
    ∃ t, exec (.drw x y n) s = .next t ∧
      (((∃ yy xx, spriteBit s x y n yy xx = true ∧ s.cell yy xx = true) ∧ t.reg 15 = 1) ∨
       ((∀ yy xx, spriteBit s x y n yy xx = true → s.cell yy xx = false) ∧ t.reg 15 = 0))

/-- Drawing the same sprite twice at the same position restores the frame buffer, and the second draw sets VF exactly when
the first left a cell set under a 1-bit of the sprite; x and y are not 0xF, since the first draw's flag could move the
second draw (R112, which the spec derives; the sprite's bits rest on its decisions D3 and D7, log 5 and log 7). -/
def Obligations.DoubleDrawRestoresTheFrame : Prop :=
  ∀ (x y : Reg) (n : Nat) (s : State), n < 16 → x ≠ 15 → y ≠ 15 →
    ∃ t u, exec (.drw x y n) s = .next t ∧ exec (.drw x y n) t = .next u ∧ (∀ yy xx, u.cell yy xx = s.cell yy xx) ∧
      (u.reg 15 = 1 ↔ ∃ yy xx, spriteBit s x y n yy xx = true ∧ t.cell yy xx = true)

/-! ### Keys and timers -/

/-- Ex9E skips when the key V[x] is down and ExA1 when it is up. An index of 16 or more follows KEY_INDEX_OOR: up reads it as
a key that is up, low_nibble takes it mod 16 (R113, R114, R115; the parameter is the spec's decision D9). -/
def Obligations.SkipsOnAKey : Prop :=
  ∀ (x : Reg) (s : State) (down : Bool),
    ((∃ k : Fin 16, (s.reg x).toNat = k.val ∧ down = s.keyAt k) ∨
     (16 ≤ (s.reg x).toNat ∧ s.params.keyIndexOor = .up ∧ down = false) ∨
     (16 ≤ (s.reg x).toNat ∧ s.params.keyIndexOor = .lowNibble ∧
      ∃ k : Fin 16, (s.reg x).toNat % 16 = k.val ∧ down = s.keyAt k)) →
    decodeWord (BitVec.ofNat 16 (0xE09E + 0x100 * x.val)) = .ok (.skp x) ∧
    decodeWord (BitVec.ofNat 16 (0xE0A1 + 0x100 * x.val)) = .ok (.sknp x) ∧
    (∃ t, exec (.skp x) s = .next t ∧ t.pc.toNat = (s.pc.toNat + if down then 4 else 2) % 65536) ∧
    (∃ t, exec (.sknp x) s = .next t ∧ t.pc.toNat = (s.pc.toNat + if down then 2 else 4) % 65536)

/-- Fx0A sets V[x] to the lowest key down and advances, VF changing only as V[x]; with no key down it changes nothing at all, pc
included (R117; that pc stays is the resolution C2 of the source's wording, log 24). -/
def Obligations.KeyWaitTakesTheLowestKey : Prop :=
  ∀ (x : Reg) (s : State),
    decodeWord (BitVec.ofNat 16 (0xF00A + 0x100 * x.val)) = .ok (.ldVxK x) ∧
    (∀ k : Fin 16, s.keyAt k = true → (∀ j, j < k → s.keyAt j = false) →
      ∃ t, exec (.ldVxK x) s = .next t ∧ (t.reg x).toNat = k.val ∧ t.pc.toNat = (s.pc.toNat + 2) % 65536 ∧
        (x ≠ 15 → t.reg 15 = s.reg 15)) ∧
    ((∀ k, s.keyAt k = false) → exec (.ldVxK x) s = .next s)

/-- Fx07 copies DT to V[x], Fx15 copies V[x] to DT, Fx18 copies V[x] to ST; a non-zero ST makes st_active 1 at once and
tone_trigger does not pulse (R116, R118, R119). -/
def Obligations.TimerInstructionsCopyTheTimers : Prop :=
  ∀ (x : Reg) (s : State),
    decodeWord (BitVec.ofNat 16 (0xF007 + 0x100 * x.val)) = .ok (.ldVxDT x) ∧
    decodeWord (BitVec.ofNat 16 (0xF015 + 0x100 * x.val)) = .ok (.ldDTVx x) ∧
    decodeWord (BitVec.ofNat 16 (0xF018 + 0x100 * x.val)) = .ok (.ldSTVx x) ∧
    (∃ t, exec (.ldVxDT x) s = .next t ∧ t.reg x = s.dt ∧ t.dt = s.dt ∧ t.pc.toNat = (s.pc.toNat + 2) % 65536 ∧
      (x ≠ 15 → t.reg 15 = s.reg 15)) ∧
    (∃ t, exec (.ldDTVx x) s = .next t ∧ t.dt = s.reg x ∧ t.pc.toNat = (s.pc.toNat + 2) % 65536 ∧
      t.reg vf = s.reg vf) ∧
    (∃ t, exec (.ldSTVx x) s = .next t ∧ t.st = s.reg x ∧ (t.stActive = true ↔ (s.reg x).toNat ≠ 0) ∧
      t.out.toneTrigger = s.out.toneTrigger ∧ t.pc.toNat = (s.pc.toNat + 2) % 65536 ∧ t.reg vf = s.reg vf)

/-! ### Frames: what an instruction leaves unchanged (R12, which the spec marks as derived with its decision D2) -/

/-- The instructions that write one register and no flag change V[x] and pc alone. -/
def Obligations.RegisterInstructionsChangeVxAndPc : Prop :=
  (∀ x nn s t, exec (.ldImm x nn) s = .next t → ChangesOnly {.reg x, .pc} s t) ∧
  (∀ x nn s t, exec (.addImm x nn) s = .next t → ChangesOnly {.reg x, .pc} s t) ∧
  (∀ x y s t, exec (.ldReg x y) s = .next t → ChangesOnly {.reg x, .pc} s t) ∧
  (∀ x y s t, exec (.orReg x y) s = .next t → ChangesOnly {.reg x, .pc} s t) ∧
  (∀ x y s t, exec (.andReg x y) s = .next t → ChangesOnly {.reg x, .pc} s t) ∧
  (∀ x y s t, exec (.xorReg x y) s = .next t → ChangesOnly {.reg x, .pc} s t) ∧
  (∀ x s t, exec (.ldVxDT x) s = .next t → ChangesOnly {.reg x, .pc} s t) ∧
  (∀ x s t, exec (.ldVxK x) s = .next t → ChangesOnly {.reg x, .pc} s t)

/-- The flag-writing arithmetic instructions change V[x], VF and pc alone. -/
def Obligations.FlagArithmeticChangesVxVfAndPc : Prop :=
  (∀ x y s t, exec (.addReg x y) s = .next t → ChangesOnly {.reg x, .reg 15, .pc} s t) ∧
  (∀ x y s t, exec (.subReg x y) s = .next t → ChangesOnly {.reg x, .reg 15, .pc} s t) ∧
  (∀ x y s t, exec (.shr x y) s = .next t → ChangesOnly {.reg x, .reg 15, .pc} s t) ∧
  (∀ x y s t, exec (.subn x y) s = .next t → ChangesOnly {.reg x, .reg 15, .pc} s t) ∧
  (∀ x y s t, exec (.shl x y) s = .next t → ChangesOnly {.reg x, .reg 15, .pc} s t)

/-- The jumps and skips change pc alone. -/
def Obligations.JumpsAndSkipsChangePc : Prop :=
  (∀ nnn s t, exec (.jp nnn) s = .next t → ChangesOnly {.pc} s t) ∧
  (∀ nnn s t, exec (.jpV0 nnn) s = .next t → ChangesOnly {.pc} s t) ∧
  (∀ x nn s t, exec (.seImm x nn) s = .next t → ChangesOnly {.pc} s t) ∧
  (∀ x nn s t, exec (.sneImm x nn) s = .next t → ChangesOnly {.pc} s t) ∧
  (∀ x y s t, exec (.seReg x y) s = .next t → ChangesOnly {.pc} s t) ∧
  (∀ x y s t, exec (.sneReg x y) s = .next t → ChangesOnly {.pc} s t) ∧
  (∀ x s t, exec (.skp x) s = .next t → ChangesOnly {.pc} s t) ∧
  (∀ x s t, exec (.sknp x) s = .next t → ChangesOnly {.pc} s t)

/-- A call changes pc, SP and the entry pushed, a return pc and SP; a dropped one changes pc and its own diagnostic. A
return with SP = 0 is dropped by the spec's decision D6 (log 3), a call with SP = 15 advances by D5 (log 9). -/
def Obligations.CallAndReturnChangeTheStack : Prop :=
  (∀ nnn s t, exec (.call nnn) s = .next t → s.sp ≠ 15 →
    ChangesOnly {p | p = .pc ∨ p = .stackPointer ∨ ∃ k : Fin 16, p = .stackEntry k ∧ k.val = s.sp.toNat + 1} s t) ∧
  (∀ nnn s t, exec (.call nnn) s = .next t → s.sp = 15 →
    ChangesOnly {.pc, .outputs} s t ∧ t.out = { s.out with diagCallDropped := true }) ∧
  (∀ s t, exec .ret s = .next t → s.sp ≠ 0 → ChangesOnly {.pc, .stackPointer} s t) ∧
  (∀ s t, exec .ret s = .next t → s.sp = 0 →
    ChangesOnly {.pc, .outputs} s t ∧ t.out = { s.out with diagReturnDropped := true })

/-- The instructions that write I, DT or ST change that register and pc alone. -/
def Obligations.SpecialRegisterInstructionsFrame : Prop :=
  (∀ nnn s t, exec (.ldI nnn) s = .next t → ChangesOnly {.index, .pc} s t) ∧
  (∀ x s t, exec (.addI x) s = .next t → ChangesOnly {.index, .pc} s t) ∧
  (∀ x s t, exec (.ldF x) s = .next t → ChangesOnly {.index, .pc} s t) ∧
  (∀ x s t, exec (.ldDTVx x) s = .next t → ChangesOnly {.delayTimer, .pc} s t) ∧
  (∀ x s t, exec (.ldSTVx x) s = .next t → ChangesOnly {.soundTimer, .pc} s t)

/-- The stores change pc and the bytes they store to: three from I for Fx33, x + 1 from I for Fx55, each address reduced
(the spec's decision D3, log 5). The premise is the invariant's clause on memory. -/
def Obligations.StoresChangeTheStoredBytes : Prop :=
  (∀ x s t, Memory.wf s.mem = true → exec (.ldB x) s = .next t → ChangesOnly ({.pc} ∪ storedBytes s 3) s t) ∧
  (∀ x s t, Memory.wf s.mem = true → exec (.storeRegs x) s = .next t →
    ChangesOnly ({.pc} ∪ storedBytes s (x.val + 1)) s t)

/-- 00E0 changes cells and pc alone; Dxyn changes pc, VF and the cells under a 1-bit of the sprite alone.
Which cells those are rests on the spec's decisions D7 (bit order, log 7), D3 (the reduction, log 5) and, for x or y = 0xF,
D1 (log 6). -/
def Obligations.DisplayInstructionsFrame : Prop :=
  (∀ s t, exec .cls s = .next t → ChangesOnly {p | p = .pc ∨ ∃ y x, p = .cell y x} s t) ∧
  (∀ x y n s t, exec (.drw x y n) s = .next t →
    ChangesOnly {p | p = .pc ∨ p = .reg 15 ∨ ∃ yy xx, p = .cell yy xx ∧ spriteBit s x y n yy xx = true} s t)

/-! ### Reset and the host -/

/-- Reset puts every piece of state at its value of R144, with the machine's FONT in memory; the state after reset is what
reset of it gives, with every parameter at its default (R131, R144; Key, Stack and V at 0 are the spec's decision D16, FONT
D8; that tone_trigger and step_done are low is the model's choice of log 14, and that a reset keeps the parameters that of
log 21). -/
def Obligations.ResetEstablishesEveryValue : Prop :=
  hostReset State.reset = State.reset ∧ State.reset.params = Params.default ∧
  ∀ s : State, ∃ t, hostApply .reset s = .next t ∧
    (∀ x, t.reg x = 0) ∧ t.i = 0 ∧ t.pc = 0x0200 ∧ t.sp = 0 ∧ (∀ k, t.stackAt k = 0) ∧ t.dt = 0 ∧ t.st = 0 ∧
    (∀ a (h : a < 80), t.memRead a = s.params.font[a]) ∧ (∀ a, 80 ≤ a → a < 4096 → t.memRead a = 0) ∧
    (∀ y x, t.cell y x = false) ∧ (∀ k, t.keyAt k = false) ∧ t.out = Outputs.low ∧ t.params = s.params

/-- The entry point is pc = 0x0200, and the first step fetches Mem[0x200] and Mem[0x201], whatever was loaded (R145). -/
def Obligations.EntryPointIs0x200 : Prop :=
  State.reset.pc = 0x0200 ∧
  ∀ m : Memory, ({ State.reset with mem := m }).fetchWord.toNat =
    256 * (Memory.get m 0x200).toNat + (Memory.get m 0x201).toNat

/-- A ROM load writes its byte at 0x200 + offset for an offset below 3584 and nothing else in memory; an offset of 3584 or
more changes no memory and raises rom_truncated, which a byte in the window leaves (R132; the byte-wise port is the spec's
decision D17). Of the other outputs the pulses of the operation before go low, the model's choice of log 14, and busy and
step_done stay. The premise is the invariant's clause on memory. -/
def Obligations.RomLoadWritesItsWindow : Prop :=
  ∀ (offset : Word) (b : Byte) (s : State), Memory.wf s.mem = true →
    ∃ t, hostApply (.load offset b) s = .next t ∧
      (offset.toNat < 3584 → t.memRead (0x200 + offset.toNat) = b ∧ t.out = s.out.quiet ∧
        ChangesOnly {p | p = .outputs ∨ ∃ a, p = .memByte a ∧ a % 4096 = 0x200 + offset.toNat} s t) ∧
      (3584 ≤ offset.toNat → t.out = { s.out.quiet with romTruncated := true } ∧ ChangesOnly {.outputs} s t)

/-- Construction: reset and then loads from offset 0 leave the ROM's bytes, at most 3584 of them, at 0x200 and up, raise
rom_truncated exactly when bytes were dropped, and leave every other state and output as reset does (R144, R146; the spec's
decision D17; that tone_trigger and step_done are low after reset is the model's choice of log 14). -/
def Obligations.ConstructionHoldsTheRom : Prop :=
  ∀ (rom : List Byte) (s : State),
    (∀ k, k < rom.length → k < 3584 → (construct rom s).memRead (0x200 + k) = rom.getD k 0) ∧
    (construct rom s).out = { Outputs.low with romTruncated := decide (3584 < rom.length) } ∧
    ChangesOnly {p | p = .outputs ∨ ∃ a k, p = .memByte a ∧ k < rom.length ∧ k < 3584 ∧ a % 4096 = 0x200 + k}
      (hostReset s) (construct rom s)

/-- A key write sets Key[k] to d[k] for all 16 keys at once, and changes nothing else but that the pulses of the operation
before go low: rom_truncated, busy and step_done stay (R124, R133; the spec's decision D21; the pulses are the model's
choice, log 14). -/
def Obligations.KeyWriteReplacesTheLatch : Prop :=
  ∀ (d : BitVec 16) (s : State), ∃ t, hostApply (.keys d) s = .next t ∧ (∀ k : Fin 16, t.keyAt k = d.getLsbD k.val) ∧
    t.out = s.out.quiet ∧ ChangesOnly {p | p = .outputs ∨ ∃ k, p = .key k} s t

/-- A tick takes one from DT and from ST, each alone and never below 0, and pulses tone_trigger exactly when it found
ST != 0; n ticks take n, down to 0 (R120, R121; the hardware form is the spec's decision D15). Of the other outputs the
diagnostics go low (the model's choice, log 14) and rom_truncated, busy and step_done stay (R124). -/
def Obligations.TicksCountDownToZero : Prop :=
  (∀ s : State, ∃ t, hostApply .tick s = .next t ∧ (t.out.toneTrigger = true ↔ s.st.toNat ≠ 0) ∧
    t.out = { s.out.quiet with toneTrigger := t.out.toneTrigger } ∧
    ChangesOnly {.delayTimer, .soundTimer, .outputs} s t) ∧
  (∀ (n : Nat) (s : State), (tickTimes n s).dt.toNat = s.dt.toNat - n ∧ (tickTimes n s).st.toNat = s.st.toNat - n)

/-- Between steps the frame read shows FB: h_pixel is the cell, and bit y*64 + x of pixels is the cell (R42, R136; the ports
are the spec's decision D22). -/
def Obligations.FrameReadShowsTheCells : Prop :=
  ∀ s : State, s.out.busy = false → ∀ (y : Fin 32) (x : Fin 64),
    s.hPixel y x = s.cell y x ∧ s.pixels.getLsbD (y.val * 64 + x.val) = s.cell y x

/-- One clock cycle. Reset comes first and abandons a step in progress. While a step is in progress every other request is
ignored, a ROM load and a tick among them, and when it completes step_done is high, busy is low, and the diagnostics are the
step's. Otherwise one request is applied, in the order ROM load, key write, tick, step, and the others are ignored: a load of
an offset of 3584 or more raises rom_truncated, which no other cycle but a reset changes; a tick pulses tone_trigger when it
finds ST != 0; a step makes the block busy (R121, R126, R131, R132, R135, R138; the spec's decisions D12, D13, D15, D17).
That a step writes nothing before the cycle in which it completes, that its writes are there those of one whole step with
that cycle's random byte, and that a step that stops under POP_EMPTY_POLICY = fault stops that cycle, is the model's choice
of log 15: R151 lets an implementation spread the writes over cycles. That a pulse is low in every cycle but its own is log
14, and that no random byte is kept for a later cycle log 12. -/
def Obligations.OneHostRequestPerCycle : Prop :=
  ∀ (p : Pins) (s : State),
    (∀ t, cycle p s = .next t → t.randPort = none) ∧
    (p.rst = true → ∃ t, cycle p s = .next t ∧ ChangesOnly {.randInput} (hostReset s) t) ∧
    (p.rst = false → s.out.busy = true → p.finish = false →
      ∃ t, cycle p s = .next t ∧ t.out = { s.out.quiet with stepDone := false } ∧
        ChangesOnly {.outputs, .randInput} s t) ∧
    (p.rst = false → s.out.busy = true → p.finish = true → ∀ u, step (s.setRandPort (some p.randByte)) = .next u →
      ∃ t, cycle p s = .next t ∧ t.out = { u.out with busy := false, stepDone := true } ∧
        ChangesOnly {.outputs, .randInput} u t) ∧
    (p.rst = false → s.out.busy = true → p.finish = true → ∀ r, step (s.setRandPort (some p.randByte)) = .fault r →
      cycle p s = .fault r) ∧
    (p.rst = false → s.out.busy = false → ∃ t, cycle p s = .next t ∧
      (p.ldWe = true → ChangesOnly {.outputs, .randInput} (hostLoad p.ldOffset p.ldData s) t ∧
        t.out = { s.out.quiet with
          stepDone := false, romTruncated := s.out.romTruncated || decide (3584 ≤ p.ldOffset.toNat) }) ∧
      (p.ldWe = false → p.keysWe = true → ChangesOnly {.outputs, .randInput} (hostKeys p.keysD s) t ∧
        t.out = { s.out.quiet with stepDone := false }) ∧
      (p.ldWe = false → p.keysWe = false → p.tick = true → ChangesOnly {.outputs, .randInput} (hostTick s) t ∧
        t.out = { s.out.quiet with stepDone := false, toneTrigger := decide (s.st.toNat ≠ 0) }) ∧
      (p.ldWe = false → p.keysWe = false → p.tick = false → ChangesOnly {.outputs, .randInput} s t ∧
        t.out = { s.out.quiet with stepDone := false, busy := p.stepReq }))
end

