-- ==== Sys2Proof/Laws/Decode.lean ====
section
/-! SUPPORT. The fields of an instruction word as digits of its value, and what decodes in each family. -/
namespace Sys2Proof

/-! The fields (30_encoding.md R63). -/

theorem toNat_fieldF (w : Word) : (fieldF w).toNat = w.toNat / 0x1000 := by
  have := w.isLt
  simp only [fieldF, BitVec.extractLsb'_toNat, Nat.shiftRight_eq_div_pow]
  omega

theorem val_fieldX (w : Word) : (fieldX w).val = w.toNat / 0x100 % 16 := by
  simp [fieldX, Nat.shiftRight_eq_div_pow]

theorem val_fieldY (w : Word) : (fieldY w).val = w.toNat / 0x10 % 16 := by
  simp [fieldY, Nat.shiftRight_eq_div_pow]

theorem toNat_fieldN (w : Word) : (fieldN w).toNat = w.toNat % 16 := by
  simp [fieldN, BitVec.extractLsb'_toNat]

theorem toNat_fieldNN (w : Word) : (fieldNN w).toNat = w.toNat % 0x100 := by
  simp [fieldNN, BitVec.extractLsb'_toNat]

theorem toNat_fieldNNN (w : Word) : (fieldNNN w).toNat = w.toNat % 0x1000 := by
  simp [fieldNNN, BitVec.extractLsb'_toNat]

/-- The two bytes of a word in memory order make the word again (20_memory.md R52). -/
theorem wordOfBytes_bytes (w : Word) : wordOfBytes (w.extractLsb' 8 8) (w.extractLsb' 0 8) = w := by
  apply BitVec.eq_of_getLsbD_eq
  intro k hk
  simp only [wordOfBytes, BitVec.getLsbD_append, BitVec.getLsbD_extractLsb']
  by_cases h : k < 8
  · simp [h]
  · have : k - 8 < 8 := by omega
    simp [h, this]; congr 1; omega

theorem toNat_wordOfBytes (hi lo : Byte) : (wordOfBytes hi lo).toNat = 0x100 * hi.toNat + lo.toNat := by
  have := lo.isLt
  simp only [wordOfBytes, BitVec.toNat_append]
  rw [Nat.shiftLeft_eq, Nat.mul_comm, ← Nat.two_pow_add_eq_or_of_lt this]

/-! The placed fields (R63, R67). -/

theorem toNat_placeNNN {p : Nat} (nnn : Addr) (hp : p ≤ 0xF000) : (placeNNN p nnn).toNat = p + nnn.toNat := by
  have := nnn.isLt
  simp only [placeNNN, BitVec.toNat_ofNat]
  omega

theorem toNat_placeX {p : Nat} (x : Reg) (hp : p ≤ 0xF0FF) : (placeX p x).toNat = p + 0x100 * x.val := by
  have := x.isLt
  simp only [placeX, BitVec.toNat_ofNat]
  omega

theorem toNat_placeXNN {p : Nat} (x : Reg) (nn : Byte) (hp : p ≤ 0xF000) :
    (placeXNN p x nn).toNat = p + 0x100 * x.val + nn.toNat := by
  have := x.isLt
  have := nn.isLt
  simp only [placeXNN, BitVec.toNat_ofNat]
  omega

theorem toNat_placeXY {p : Nat} (x y : Reg) (hp : p ≤ 0xF00F) :
    (placeXY p x y).toNat = p + 0x100 * x.val + 0x10 * y.val := by
  have := x.isLt
  have := y.isLt
  simp only [placeXY, BitVec.toNat_ofNat]
  omega

/-- Decoding the two bytes of a word decodes the word. -/
theorem decode_bytesOfWord (w : Word) (rest : List Byte) :
    decode (bytesOfWord w ++ rest) =
      match decodeWord w with
      | .ok i => .ok (i, rest)
      | .error e => .error e := by
  cases h : decodeWord w <;>
    simp only [bytesOfWord, List.cons_append, List.nil_append, decode, wordOfBytes_bytes, h]

end Sys2Proof
end

