-- ==== Sys2Proof/Laws/State.lean ====
section
/-! SUPPORT. One lemma per field, and per accessor, for each basic update of the state, true by rfl: what an update leaves
alone and what it sets. The composite updates unfold to the basic ones. -/
namespace Sys2Proof.Machine.State

variable (s : State)

@[simp] theorem setReg_v (r : Reg) (b : Byte) : (s.setReg r b).v = s.v.set r.val b r.isLt := rfl
@[simp] theorem setReg_i (r : Reg) (b : Byte) : (s.setReg r b).i = s.i := rfl
@[simp] theorem setReg_pc (r : Reg) (b : Byte) : (s.setReg r b).pc = s.pc := rfl
@[simp] theorem setReg_stack (r : Reg) (b : Byte) : (s.setReg r b).stack = s.stack := rfl
@[simp] theorem setReg_sp (r : Reg) (b : Byte) : (s.setReg r b).sp = s.sp := rfl
@[simp] theorem setReg_dt (r : Reg) (b : Byte) : (s.setReg r b).dt = s.dt := rfl
@[simp] theorem setReg_st (r : Reg) (b : Byte) : (s.setReg r b).st = s.st := rfl
@[simp] theorem setReg_mem (r : Reg) (b : Byte) : (s.setReg r b).mem = s.mem := rfl
@[simp] theorem setReg_fb (r : Reg) (b : Byte) : (s.setReg r b).fb = s.fb := rfl
@[simp] theorem setReg_key (r : Reg) (b : Byte) : (s.setReg r b).key = s.key := rfl
@[simp] theorem setReg_out (r : Reg) (b : Byte) : (s.setReg r b).out = s.out := rfl
@[simp] theorem setReg_params (r : Reg) (b : Byte) : (s.setReg r b).params = s.params := rfl
@[simp] theorem setReg_randPort (r : Reg) (b : Byte) : (s.setReg r b).randPort = s.randPort := rfl
@[simp] theorem setReg_fresh (r : Reg) (b : Byte) : (s.setReg r b).fresh = s.fresh := rfl
@[simp] theorem setReg_keyAt (r : Reg) (b : Byte) (k : Fin 16) : (s.setReg r b).keyAt k = s.keyAt k := rfl
@[simp] theorem setReg_cell (r : Reg) (b : Byte) (y : Fin 32) (x : Fin 64) : (s.setReg r b).cell y x = s.cell y x := rfl
@[simp] theorem setReg_stackAt (r : Reg) (b : Byte) (k : Fin 16) : (s.setReg r b).stackAt k = s.stackAt k := rfl
@[simp] theorem setReg_memRead (r : Reg) (b : Byte) (a : Nat) : (s.setReg r b).memRead a = s.memRead a := rfl

@[simp] theorem setIndex_v (w : Word) : (s.setIndex w).v = s.v := rfl
@[simp] theorem setIndex_i (w : Word) : (s.setIndex w).i = w := rfl
@[simp] theorem setIndex_pc (w : Word) : (s.setIndex w).pc = s.pc := rfl
@[simp] theorem setIndex_stack (w : Word) : (s.setIndex w).stack = s.stack := rfl
@[simp] theorem setIndex_sp (w : Word) : (s.setIndex w).sp = s.sp := rfl
@[simp] theorem setIndex_dt (w : Word) : (s.setIndex w).dt = s.dt := rfl
@[simp] theorem setIndex_st (w : Word) : (s.setIndex w).st = s.st := rfl
@[simp] theorem setIndex_mem (w : Word) : (s.setIndex w).mem = s.mem := rfl
@[simp] theorem setIndex_fb (w : Word) : (s.setIndex w).fb = s.fb := rfl
@[simp] theorem setIndex_key (w : Word) : (s.setIndex w).key = s.key := rfl
@[simp] theorem setIndex_out (w : Word) : (s.setIndex w).out = s.out := rfl
@[simp] theorem setIndex_params (w : Word) : (s.setIndex w).params = s.params := rfl
@[simp] theorem setIndex_randPort (w : Word) : (s.setIndex w).randPort = s.randPort := rfl
@[simp] theorem setIndex_fresh (w : Word) : (s.setIndex w).fresh = s.fresh := rfl
@[simp] theorem setIndex_reg (w : Word) (x : Reg) : (s.setIndex w).reg x = s.reg x := rfl
@[simp] theorem setIndex_keyAt (w : Word) (k : Fin 16) : (s.setIndex w).keyAt k = s.keyAt k := rfl
@[simp] theorem setIndex_cell (w : Word) (y : Fin 32) (x : Fin 64) : (s.setIndex w).cell y x = s.cell y x := rfl
@[simp] theorem setIndex_stackAt (w : Word) (k : Fin 16) : (s.setIndex w).stackAt k = s.stackAt k := rfl
@[simp] theorem setIndex_memRead (w : Word) (a : Nat) : (s.setIndex w).memRead a = s.memRead a := rfl

@[simp] theorem jumpTo_v (w : Word) : (s.jumpTo w).v = s.v := rfl
@[simp] theorem jumpTo_i (w : Word) : (s.jumpTo w).i = s.i := rfl
@[simp] theorem jumpTo_pc (w : Word) : (s.jumpTo w).pc = w := rfl
@[simp] theorem jumpTo_stack (w : Word) : (s.jumpTo w).stack = s.stack := rfl
@[simp] theorem jumpTo_sp (w : Word) : (s.jumpTo w).sp = s.sp := rfl
@[simp] theorem jumpTo_dt (w : Word) : (s.jumpTo w).dt = s.dt := rfl
@[simp] theorem jumpTo_st (w : Word) : (s.jumpTo w).st = s.st := rfl
@[simp] theorem jumpTo_mem (w : Word) : (s.jumpTo w).mem = s.mem := rfl
@[simp] theorem jumpTo_fb (w : Word) : (s.jumpTo w).fb = s.fb := rfl
@[simp] theorem jumpTo_key (w : Word) : (s.jumpTo w).key = s.key := rfl
@[simp] theorem jumpTo_out (w : Word) : (s.jumpTo w).out = s.out := rfl
@[simp] theorem jumpTo_params (w : Word) : (s.jumpTo w).params = s.params := rfl
@[simp] theorem jumpTo_randPort (w : Word) : (s.jumpTo w).randPort = s.randPort := rfl
@[simp] theorem jumpTo_fresh (w : Word) : (s.jumpTo w).fresh = s.fresh := rfl
@[simp] theorem jumpTo_reg (w : Word) (x : Reg) : (s.jumpTo w).reg x = s.reg x := rfl
@[simp] theorem jumpTo_keyAt (w : Word) (k : Fin 16) : (s.jumpTo w).keyAt k = s.keyAt k := rfl
@[simp] theorem jumpTo_cell (w : Word) (y : Fin 32) (x : Fin 64) : (s.jumpTo w).cell y x = s.cell y x := rfl
@[simp] theorem jumpTo_stackAt (w : Word) (k : Fin 16) : (s.jumpTo w).stackAt k = s.stackAt k := rfl
@[simp] theorem jumpTo_memRead (w : Word) (a : Nat) : (s.jumpTo w).memRead a = s.memRead a := rfl

@[simp] theorem setDT_v (b : Byte) : (s.setDT b).v = s.v := rfl
@[simp] theorem setDT_i (b : Byte) : (s.setDT b).i = s.i := rfl
@[simp] theorem setDT_pc (b : Byte) : (s.setDT b).pc = s.pc := rfl
@[simp] theorem setDT_stack (b : Byte) : (s.setDT b).stack = s.stack := rfl
@[simp] theorem setDT_sp (b : Byte) : (s.setDT b).sp = s.sp := rfl
@[simp] theorem setDT_dt (b : Byte) : (s.setDT b).dt = b := rfl
@[simp] theorem setDT_st (b : Byte) : (s.setDT b).st = s.st := rfl
@[simp] theorem setDT_mem (b : Byte) : (s.setDT b).mem = s.mem := rfl
@[simp] theorem setDT_fb (b : Byte) : (s.setDT b).fb = s.fb := rfl
@[simp] theorem setDT_key (b : Byte) : (s.setDT b).key = s.key := rfl
@[simp] theorem setDT_out (b : Byte) : (s.setDT b).out = s.out := rfl
@[simp] theorem setDT_params (b : Byte) : (s.setDT b).params = s.params := rfl
@[simp] theorem setDT_randPort (b : Byte) : (s.setDT b).randPort = s.randPort := rfl
@[simp] theorem setDT_fresh (b : Byte) : (s.setDT b).fresh = s.fresh := rfl
@[simp] theorem setDT_reg (b : Byte) (x : Reg) : (s.setDT b).reg x = s.reg x := rfl
@[simp] theorem setDT_keyAt (b : Byte) (k : Fin 16) : (s.setDT b).keyAt k = s.keyAt k := rfl
@[simp] theorem setDT_cell (b : Byte) (y : Fin 32) (x : Fin 64) : (s.setDT b).cell y x = s.cell y x := rfl
@[simp] theorem setDT_stackAt (b : Byte) (k : Fin 16) : (s.setDT b).stackAt k = s.stackAt k := rfl
@[simp] theorem setDT_memRead (b : Byte) (a : Nat) : (s.setDT b).memRead a = s.memRead a := rfl

@[simp] theorem setST_v (b : Byte) : (s.setST b).v = s.v := rfl
@[simp] theorem setST_i (b : Byte) : (s.setST b).i = s.i := rfl
@[simp] theorem setST_pc (b : Byte) : (s.setST b).pc = s.pc := rfl
@[simp] theorem setST_stack (b : Byte) : (s.setST b).stack = s.stack := rfl
@[simp] theorem setST_sp (b : Byte) : (s.setST b).sp = s.sp := rfl
@[simp] theorem setST_dt (b : Byte) : (s.setST b).dt = s.dt := rfl
@[simp] theorem setST_st (b : Byte) : (s.setST b).st = b := rfl
@[simp] theorem setST_mem (b : Byte) : (s.setST b).mem = s.mem := rfl
@[simp] theorem setST_fb (b : Byte) : (s.setST b).fb = s.fb := rfl
@[simp] theorem setST_key (b : Byte) : (s.setST b).key = s.key := rfl
@[simp] theorem setST_out (b : Byte) : (s.setST b).out = s.out := rfl
@[simp] theorem setST_params (b : Byte) : (s.setST b).params = s.params := rfl
@[simp] theorem setST_randPort (b : Byte) : (s.setST b).randPort = s.randPort := rfl
@[simp] theorem setST_fresh (b : Byte) : (s.setST b).fresh = s.fresh := rfl
@[simp] theorem setST_reg (b : Byte) (x : Reg) : (s.setST b).reg x = s.reg x := rfl
@[simp] theorem setST_keyAt (b : Byte) (k : Fin 16) : (s.setST b).keyAt k = s.keyAt k := rfl
@[simp] theorem setST_cell (b : Byte) (y : Fin 32) (x : Fin 64) : (s.setST b).cell y x = s.cell y x := rfl
@[simp] theorem setST_stackAt (b : Byte) (k : Fin 16) : (s.setST b).stackAt k = s.stackAt k := rfl
@[simp] theorem setST_memRead (b : Byte) (a : Nat) : (s.setST b).memRead a = s.memRead a := rfl

@[simp] theorem memWrite_v (n : Nat) (b : Byte) : (s.memWrite n b).v = s.v := rfl
@[simp] theorem memWrite_i (n : Nat) (b : Byte) : (s.memWrite n b).i = s.i := rfl
@[simp] theorem memWrite_pc (n : Nat) (b : Byte) : (s.memWrite n b).pc = s.pc := rfl
@[simp] theorem memWrite_stack (n : Nat) (b : Byte) : (s.memWrite n b).stack = s.stack := rfl
@[simp] theorem memWrite_sp (n : Nat) (b : Byte) : (s.memWrite n b).sp = s.sp := rfl
@[simp] theorem memWrite_dt (n : Nat) (b : Byte) : (s.memWrite n b).dt = s.dt := rfl
@[simp] theorem memWrite_st (n : Nat) (b : Byte) : (s.memWrite n b).st = s.st := rfl
@[simp] theorem memWrite_mem (n : Nat) (b : Byte) : (s.memWrite n b).mem = Memory.put s.mem (maskAddr n) b := rfl
@[simp] theorem memWrite_fb (n : Nat) (b : Byte) : (s.memWrite n b).fb = s.fb := rfl
@[simp] theorem memWrite_key (n : Nat) (b : Byte) : (s.memWrite n b).key = s.key := rfl
@[simp] theorem memWrite_out (n : Nat) (b : Byte) : (s.memWrite n b).out = s.out := rfl
@[simp] theorem memWrite_params (n : Nat) (b : Byte) : (s.memWrite n b).params = s.params := rfl
@[simp] theorem memWrite_randPort (n : Nat) (b : Byte) : (s.memWrite n b).randPort = s.randPort := rfl
@[simp] theorem memWrite_fresh (n : Nat) (b : Byte) : (s.memWrite n b).fresh = s.fresh := rfl
@[simp] theorem memWrite_reg (n : Nat) (b : Byte) (x : Reg) : (s.memWrite n b).reg x = s.reg x := rfl
@[simp] theorem memWrite_keyAt (n : Nat) (b : Byte) (k : Fin 16) : (s.memWrite n b).keyAt k = s.keyAt k := rfl
@[simp] theorem memWrite_cell (n : Nat) (b : Byte) (y : Fin 32) (x : Fin 64) : (s.memWrite n b).cell y x = s.cell y x := rfl
@[simp] theorem memWrite_stackAt (n : Nat) (b : Byte) (k : Fin 16) : (s.memWrite n b).stackAt k = s.stackAt k := rfl

@[simp] theorem setFrame_v (f : Frame) : (s.setFrame f).v = s.v := rfl
@[simp] theorem setFrame_i (f : Frame) : (s.setFrame f).i = s.i := rfl
@[simp] theorem setFrame_pc (f : Frame) : (s.setFrame f).pc = s.pc := rfl
@[simp] theorem setFrame_stack (f : Frame) : (s.setFrame f).stack = s.stack := rfl
@[simp] theorem setFrame_sp (f : Frame) : (s.setFrame f).sp = s.sp := rfl
@[simp] theorem setFrame_dt (f : Frame) : (s.setFrame f).dt = s.dt := rfl
@[simp] theorem setFrame_st (f : Frame) : (s.setFrame f).st = s.st := rfl
@[simp] theorem setFrame_mem (f : Frame) : (s.setFrame f).mem = s.mem := rfl
@[simp] theorem setFrame_fb (f : Frame) : (s.setFrame f).fb = f := rfl
@[simp] theorem setFrame_key (f : Frame) : (s.setFrame f).key = s.key := rfl
@[simp] theorem setFrame_out (f : Frame) : (s.setFrame f).out = s.out := rfl
@[simp] theorem setFrame_params (f : Frame) : (s.setFrame f).params = s.params := rfl
@[simp] theorem setFrame_randPort (f : Frame) : (s.setFrame f).randPort = s.randPort := rfl
@[simp] theorem setFrame_fresh (f : Frame) : (s.setFrame f).fresh = s.fresh := rfl
@[simp] theorem setFrame_reg (f : Frame) (x : Reg) : (s.setFrame f).reg x = s.reg x := rfl
@[simp] theorem setFrame_keyAt (f : Frame) (k : Fin 16) : (s.setFrame f).keyAt k = s.keyAt k := rfl
@[simp] theorem setFrame_stackAt (f : Frame) (k : Fin 16) : (s.setFrame f).stackAt k = s.stackAt k := rfl
@[simp] theorem setFrame_memRead (f : Frame) (a : Nat) : (s.setFrame f).memRead a = s.memRead a := rfl

@[simp] theorem setKey_v (d : BitVec 16) : (s.setKey d).v = s.v := rfl
@[simp] theorem setKey_i (d : BitVec 16) : (s.setKey d).i = s.i := rfl
@[simp] theorem setKey_pc (d : BitVec 16) : (s.setKey d).pc = s.pc := rfl
@[simp] theorem setKey_stack (d : BitVec 16) : (s.setKey d).stack = s.stack := rfl
@[simp] theorem setKey_sp (d : BitVec 16) : (s.setKey d).sp = s.sp := rfl
@[simp] theorem setKey_dt (d : BitVec 16) : (s.setKey d).dt = s.dt := rfl
@[simp] theorem setKey_st (d : BitVec 16) : (s.setKey d).st = s.st := rfl
@[simp] theorem setKey_mem (d : BitVec 16) : (s.setKey d).mem = s.mem := rfl
@[simp] theorem setKey_fb (d : BitVec 16) : (s.setKey d).fb = s.fb := rfl
@[simp] theorem setKey_key (d : BitVec 16) : (s.setKey d).key = d := rfl
@[simp] theorem setKey_out (d : BitVec 16) : (s.setKey d).out = s.out := rfl
@[simp] theorem setKey_params (d : BitVec 16) : (s.setKey d).params = s.params := rfl
@[simp] theorem setKey_randPort (d : BitVec 16) : (s.setKey d).randPort = s.randPort := rfl
@[simp] theorem setKey_fresh (d : BitVec 16) : (s.setKey d).fresh = s.fresh := rfl
@[simp] theorem setKey_reg (d : BitVec 16) (x : Reg) : (s.setKey d).reg x = s.reg x := rfl
@[simp] theorem setKey_cell (d : BitVec 16) (y : Fin 32) (x : Fin 64) : (s.setKey d).cell y x = s.cell y x := rfl
@[simp] theorem setKey_stackAt (d : BitVec 16) (k : Fin 16) : (s.setKey d).stackAt k = s.stackAt k := rfl
@[simp] theorem setKey_memRead (d : BitVec 16) (a : Nat) : (s.setKey d).memRead a = s.memRead a := rfl

@[simp] theorem setOut_v (o : Outputs) : (s.setOut o).v = s.v := rfl
@[simp] theorem setOut_i (o : Outputs) : (s.setOut o).i = s.i := rfl
@[simp] theorem setOut_pc (o : Outputs) : (s.setOut o).pc = s.pc := rfl
@[simp] theorem setOut_stack (o : Outputs) : (s.setOut o).stack = s.stack := rfl
@[simp] theorem setOut_sp (o : Outputs) : (s.setOut o).sp = s.sp := rfl
@[simp] theorem setOut_dt (o : Outputs) : (s.setOut o).dt = s.dt := rfl
@[simp] theorem setOut_st (o : Outputs) : (s.setOut o).st = s.st := rfl
@[simp] theorem setOut_mem (o : Outputs) : (s.setOut o).mem = s.mem := rfl
@[simp] theorem setOut_fb (o : Outputs) : (s.setOut o).fb = s.fb := rfl
@[simp] theorem setOut_key (o : Outputs) : (s.setOut o).key = s.key := rfl
@[simp] theorem setOut_out (o : Outputs) : (s.setOut o).out = o := rfl
@[simp] theorem setOut_params (o : Outputs) : (s.setOut o).params = s.params := rfl
@[simp] theorem setOut_randPort (o : Outputs) : (s.setOut o).randPort = s.randPort := rfl
@[simp] theorem setOut_fresh (o : Outputs) : (s.setOut o).fresh = s.fresh := rfl
@[simp] theorem setOut_reg (o : Outputs) (x : Reg) : (s.setOut o).reg x = s.reg x := rfl
@[simp] theorem setOut_keyAt (o : Outputs) (k : Fin 16) : (s.setOut o).keyAt k = s.keyAt k := rfl
@[simp] theorem setOut_cell (o : Outputs) (y : Fin 32) (x : Fin 64) : (s.setOut o).cell y x = s.cell y x := rfl
@[simp] theorem setOut_stackAt (o : Outputs) (k : Fin 16) : (s.setOut o).stackAt k = s.stackAt k := rfl
@[simp] theorem setOut_memRead (o : Outputs) (a : Nat) : (s.setOut o).memRead a = s.memRead a := rfl

@[simp] theorem setRandPort_v (b : Option Byte) : (s.setRandPort b).v = s.v := rfl
@[simp] theorem setRandPort_i (b : Option Byte) : (s.setRandPort b).i = s.i := rfl
@[simp] theorem setRandPort_pc (b : Option Byte) : (s.setRandPort b).pc = s.pc := rfl
@[simp] theorem setRandPort_stack (b : Option Byte) : (s.setRandPort b).stack = s.stack := rfl
@[simp] theorem setRandPort_sp (b : Option Byte) : (s.setRandPort b).sp = s.sp := rfl
@[simp] theorem setRandPort_dt (b : Option Byte) : (s.setRandPort b).dt = s.dt := rfl
@[simp] theorem setRandPort_st (b : Option Byte) : (s.setRandPort b).st = s.st := rfl
@[simp] theorem setRandPort_mem (b : Option Byte) : (s.setRandPort b).mem = s.mem := rfl
@[simp] theorem setRandPort_fb (b : Option Byte) : (s.setRandPort b).fb = s.fb := rfl
@[simp] theorem setRandPort_key (b : Option Byte) : (s.setRandPort b).key = s.key := rfl
@[simp] theorem setRandPort_out (b : Option Byte) : (s.setRandPort b).out = s.out := rfl
@[simp] theorem setRandPort_params (b : Option Byte) : (s.setRandPort b).params = s.params := rfl
@[simp] theorem setRandPort_randPort (b : Option Byte) : (s.setRandPort b).randPort = b := rfl
@[simp] theorem setRandPort_fresh (b : Option Byte) : (s.setRandPort b).fresh = s.fresh := rfl
@[simp] theorem setRandPort_reg (b : Option Byte) (x : Reg) : (s.setRandPort b).reg x = s.reg x := rfl
@[simp] theorem setRandPort_keyAt (b : Option Byte) (k : Fin 16) : (s.setRandPort b).keyAt k = s.keyAt k := rfl
@[simp] theorem setRandPort_cell (b : Option Byte) (y : Fin 32) (x : Fin 64) : (s.setRandPort b).cell y x = s.cell y x := rfl
@[simp] theorem setRandPort_stackAt (b : Option Byte) (k : Fin 16) : (s.setRandPort b).stackAt k = s.stackAt k := rfl
@[simp] theorem setRandPort_memRead (b : Option Byte) (a : Nat) : (s.setRandPort b).memRead a = s.memRead a := rfl

@[simp] theorem nextDraw_v : (s.nextDraw).v = s.v := rfl
@[simp] theorem nextDraw_i : (s.nextDraw).i = s.i := rfl
@[simp] theorem nextDraw_pc : (s.nextDraw).pc = s.pc := rfl
@[simp] theorem nextDraw_stack : (s.nextDraw).stack = s.stack := rfl
@[simp] theorem nextDraw_sp : (s.nextDraw).sp = s.sp := rfl
@[simp] theorem nextDraw_dt : (s.nextDraw).dt = s.dt := rfl
@[simp] theorem nextDraw_st : (s.nextDraw).st = s.st := rfl
@[simp] theorem nextDraw_mem : (s.nextDraw).mem = s.mem := rfl
@[simp] theorem nextDraw_fb : (s.nextDraw).fb = s.fb := rfl
@[simp] theorem nextDraw_key : (s.nextDraw).key = s.key := rfl
@[simp] theorem nextDraw_out : (s.nextDraw).out = s.out := rfl
@[simp] theorem nextDraw_params : (s.nextDraw).params = s.params := rfl
@[simp] theorem nextDraw_randPort : (s.nextDraw).randPort = none := rfl
@[simp] theorem nextDraw_fresh : (s.nextDraw).fresh = s.fresh + 1 := rfl
@[simp] theorem nextDraw_reg (x : Reg) : (s.nextDraw).reg x = s.reg x := rfl
@[simp] theorem nextDraw_keyAt (k : Fin 16) : (s.nextDraw).keyAt k = s.keyAt k := rfl
@[simp] theorem nextDraw_cell (y : Fin 32) (x : Fin 64) : (s.nextDraw).cell y x = s.cell y x := rfl
@[simp] theorem nextDraw_stackAt (k : Fin 16) : (s.nextDraw).stackAt k = s.stackAt k := rfl
@[simp] theorem nextDraw_memRead (a : Nat) : (s.nextDraw).memRead a = s.memRead a := rfl

@[simp] theorem memWriteList_v (n : Nat) (bs : List Byte) : (s.memWriteList n bs).v = s.v := rfl
@[simp] theorem memWriteList_i (n : Nat) (bs : List Byte) : (s.memWriteList n bs).i = s.i := rfl
@[simp] theorem memWriteList_pc (n : Nat) (bs : List Byte) : (s.memWriteList n bs).pc = s.pc := rfl
@[simp] theorem memWriteList_stack (n : Nat) (bs : List Byte) : (s.memWriteList n bs).stack = s.stack := rfl
@[simp] theorem memWriteList_sp (n : Nat) (bs : List Byte) : (s.memWriteList n bs).sp = s.sp := rfl
@[simp] theorem memWriteList_dt (n : Nat) (bs : List Byte) : (s.memWriteList n bs).dt = s.dt := rfl
@[simp] theorem memWriteList_st (n : Nat) (bs : List Byte) : (s.memWriteList n bs).st = s.st := rfl
@[simp] theorem memWriteList_mem (n : Nat) (bs : List Byte) : (s.memWriteList n bs).mem = Memory.putList s.mem n bs := rfl
@[simp] theorem memWriteList_fb (n : Nat) (bs : List Byte) : (s.memWriteList n bs).fb = s.fb := rfl
@[simp] theorem memWriteList_key (n : Nat) (bs : List Byte) : (s.memWriteList n bs).key = s.key := rfl
@[simp] theorem memWriteList_out (n : Nat) (bs : List Byte) : (s.memWriteList n bs).out = s.out := rfl
@[simp] theorem memWriteList_params (n : Nat) (bs : List Byte) : (s.memWriteList n bs).params = s.params := rfl
@[simp] theorem memWriteList_randPort (n : Nat) (bs : List Byte) : (s.memWriteList n bs).randPort = s.randPort := rfl
@[simp] theorem memWriteList_fresh (n : Nat) (bs : List Byte) : (s.memWriteList n bs).fresh = s.fresh := rfl
@[simp] theorem memWriteList_reg (n : Nat) (bs : List Byte) (x : Reg) : (s.memWriteList n bs).reg x = s.reg x := rfl
@[simp] theorem memWriteList_keyAt (n : Nat) (bs : List Byte) (k : Fin 16) : (s.memWriteList n bs).keyAt k = s.keyAt k := rfl
@[simp] theorem memWriteList_cell (n : Nat) (bs : List Byte) (y : Fin 32) (x : Fin 64) : (s.memWriteList n bs).cell y x = s.cell y x := rfl
@[simp] theorem memWriteList_stackAt (n : Nat) (bs : List Byte) (k : Fin 16) : (s.memWriteList n bs).stackAt k = s.stackAt k := rfl

@[simp] theorem setRegs_v (rs : List Reg) (g : Reg → Byte) : (s.setRegs rs g).v = rs.foldl (fun v r => v.set r.val (g r) r.isLt) s.v := rfl
@[simp] theorem setRegs_i (rs : List Reg) (g : Reg → Byte) : (s.setRegs rs g).i = s.i := rfl
@[simp] theorem setRegs_pc (rs : List Reg) (g : Reg → Byte) : (s.setRegs rs g).pc = s.pc := rfl
@[simp] theorem setRegs_stack (rs : List Reg) (g : Reg → Byte) : (s.setRegs rs g).stack = s.stack := rfl
@[simp] theorem setRegs_sp (rs : List Reg) (g : Reg → Byte) : (s.setRegs rs g).sp = s.sp := rfl
@[simp] theorem setRegs_dt (rs : List Reg) (g : Reg → Byte) : (s.setRegs rs g).dt = s.dt := rfl
@[simp] theorem setRegs_st (rs : List Reg) (g : Reg → Byte) : (s.setRegs rs g).st = s.st := rfl
@[simp] theorem setRegs_mem (rs : List Reg) (g : Reg → Byte) : (s.setRegs rs g).mem = s.mem := rfl
@[simp] theorem setRegs_fb (rs : List Reg) (g : Reg → Byte) : (s.setRegs rs g).fb = s.fb := rfl
@[simp] theorem setRegs_key (rs : List Reg) (g : Reg → Byte) : (s.setRegs rs g).key = s.key := rfl
@[simp] theorem setRegs_out (rs : List Reg) (g : Reg → Byte) : (s.setRegs rs g).out = s.out := rfl
@[simp] theorem setRegs_params (rs : List Reg) (g : Reg → Byte) : (s.setRegs rs g).params = s.params := rfl
@[simp] theorem setRegs_randPort (rs : List Reg) (g : Reg → Byte) : (s.setRegs rs g).randPort = s.randPort := rfl
@[simp] theorem setRegs_fresh (rs : List Reg) (g : Reg → Byte) : (s.setRegs rs g).fresh = s.fresh := rfl
@[simp] theorem setRegs_keyAt (rs : List Reg) (g : Reg → Byte) (k : Fin 16) : (s.setRegs rs g).keyAt k = s.keyAt k := rfl
@[simp] theorem setRegs_cell (rs : List Reg) (g : Reg → Byte) (y : Fin 32) (x : Fin 64) : (s.setRegs rs g).cell y x = s.cell y x := rfl
@[simp] theorem setRegs_stackAt (rs : List Reg) (g : Reg → Byte) (k : Fin 16) : (s.setRegs rs g).stackAt k = s.stackAt k := rfl
@[simp] theorem setRegs_memRead (rs : List Reg) (g : Reg → Byte) (a : Nat) : (s.setRegs rs g).memRead a = s.memRead a := rfl

@[simp] theorem advance_eq : s.advance = s.jumpTo (s.pc + 2) := rfl
@[simp] theorem skip_eq : s.skip = s.jumpTo (s.pc + 4) := rfl
@[simp] theorem clearPulses_eq : s.clearPulses = s.setOut s.out.quiet := rfl
@[simp] theorem raiseUndecoded_eq : s.raiseUndecoded = s.setOut { s.out with diagUndecoded := true } := rfl
@[simp] theorem raiseCallDropped_eq : s.raiseCallDropped = s.setOut { s.out with diagCallDropped := true } := rfl
@[simp] theorem raiseReturnDropped_eq : s.raiseReturnDropped = s.setOut { s.out with diagReturnDropped := true } := rfl
@[simp] theorem setFlag_eq (f : Bool) : s.setFlag f = s.setReg vf (flagByte f) := rfl
@[simp] theorem finishReg_eq (x : Reg) (b : Byte) : s.finishReg x b = (s.setReg x b).jumpTo (s.pc + 2) := rfl
@[simp] theorem setFrame_cell (f : Frame) (y : Fin 32) (x : Fin 64) : (s.setFrame f).cell y x = Frame.pixel f y x := rfl
@[simp] theorem setKey_keyAt (d : BitVec 16) (k : Fin 16) : (s.setKey d).keyAt k = d.getLsbD k.val := rfl

/-- A skip changes pc alone, by 4 or by 2. -/
theorem skipIf_eq (c : Bool) : s.skipIf c = s.jumpTo (if c then s.pc + 4 else s.pc + 2) := by
  cases c <;> rfl

end Sys2Proof.Machine.State
end

