-- ==== Sys2Proof/Laws/Memory.lean ====
section
/-! SUPPORT. The laws of memory: a read after a write, and that every memory operation keeps the canonical form. -/
namespace Sys2Proof.Machine

namespace Memory

theorem rising_mono {m : Memory} {low low' : Nat} (h : low' ≤ low) (hm : rising low m = true) : rising low' m = true := by
  cases m with
  | nil => rfl
  | cons c m =>
    simp only [rising, Bool.and_eq_true, decide_eq_true_eq] at hm ⊢
    exact ⟨h.trans hm.1, hm.2⟩

/-- Below the first listed address nothing is listed. -/
theorem get_of_rising {m : Memory} {low a : Nat} (hm : rising low m = true) (ha : a < low) : get m a = initial a := by
  induction m generalizing low with
  | nil => rfl
  | cons c m ih =>
    simp only [rising, Bool.and_eq_true, decide_eq_true_eq] at hm
    have hne : c.1 ≠ a := by omega
    simp only [get, hne, if_false]
    exact ih hm.2 (by omega)

theorem get_cons {a b' : Nat} {b : Byte} {m : Memory} (hm : rising (a + 1) m = true) :
    get (cons a b m) b' = if b' = a then b else get m b' := by
  unfold cons
  by_cases hb : b = initial a
  · by_cases h : b' = a
    · subst h; simp [hb, get_of_rising hm (Nat.lt_succ_self _)]
    · simp [hb, h]
  · by_cases h : b' = a
    · simp [hb, h, get]
    · simp [hb, h, get, Ne.symm h]

/-- A read after a write in a memory of rising addresses. -/
theorem get_put {m : Memory} {low a b' : Nat} {b : Byte} (hm : rising low m = true) :
    get (put m a b) b' = if b' = a then b else get m b' := by
  induction m generalizing low with
  | nil => exact get_cons rfl
  | cons c m ih =>
    simp only [rising, Bool.and_eq_true, decide_eq_true_eq] at hm
    unfold put
    split
    · rename_i h
      exact get_cons (by simp only [rising, Bool.and_eq_true, decide_eq_true_eq]; exact ⟨h, hm.2⟩)
    · split
      · rename_i _ h
        rw [get_cons (by rw [h]; exact hm.2)]
        by_cases hb : b' = a
        · simp [hb]
        · have : c.1 ≠ b' := fun e => hb (by omega)
          simp [hb, get, this]
      · rename_i _ h
        by_cases hc : c.1 = b'
        · have : b' ≠ a := by omega
          simp [get, hc, this]
        · simp only [get, hc, if_false]
          exact ih hm.2

theorem rising_cons {low a : Nat} {b : Byte} {m : Memory} (hl : low ≤ a) (hm : rising (a + 1) m = true) :
    rising low (cons a b m) = true := by
  unfold cons
  split
  · exact rising_mono (by omega) hm
  · simp [rising, hl, hm]

theorem rising_put {m : Memory} {low a : Nat} {b : Byte} (hl : low ≤ a) (hm : rising low m = true) :
    rising low (put m a b) = true := by
  induction m generalizing low with
  | nil => exact rising_cons hl rfl
  | cons c m ih =>
    simp only [rising, Bool.and_eq_true, decide_eq_true_eq] at hm
    unfold put
    split
    · rename_i h
      exact rising_cons hl (by simp only [rising, Bool.and_eq_true, decide_eq_true_eq]; exact ⟨h, hm.2⟩)
    · split
      · rename_i _ h
        exact rising_cons hl (by rw [h]; exact hm.2)
      · rename_i h1 h2
        simp only [rising, Bool.and_eq_true, decide_eq_true_eq]
        exact ⟨hm.1, ih (by omega) hm.2⟩

/-- What every entry of a canonical memory meets. -/
def entryOk (c : Host.Cell) : Bool := decide (c.1 < Config.memSize) && c.2 != initial c.1

theorem all_cons {a : Nat} {b : Byte} {m : Memory} (ha : a < Config.memSize) (hm : m.all entryOk = true) :
    (cons a b m).all entryOk = true := by
  unfold cons
  split
  · exact hm
  · rename_i hb
    simp [entryOk, ha, hb] at hm ⊢
    exact hm

theorem all_put {m : Memory} {a : Nat} {b : Byte} (ha : a < Config.memSize) (hm : m.all entryOk = true) :
    (put m a b).all entryOk = true := by
  induction m with
  | nil => exact all_cons ha rfl
  | cons c m ih =>
    have hcm := hm
    simp only [List.all_cons, Bool.and_eq_true] at hm
    unfold put
    split
    · exact all_cons ha hcm
    · split
      · exact all_cons ha hm.2
      · simp only [List.all_cons, Bool.and_eq_true]
        exact ⟨hm.1, ih hm.2⟩

theorem wf_iff (m : Memory) : wf m = true ↔ rising 0 m = true ∧ m.all entryOk = true := by
  simp only [wf, Bool.and_eq_true]; rfl

/-- A write keeps the canonical form. -/
theorem wf_put {m : Memory} {a : Nat} {b : Byte} (ha : a < Config.memSize) (hm : wf m = true) : wf (put m a b) = true := by
  rw [wf_iff] at hm ⊢
  exact ⟨rising_put (Nat.zero_le a) hm.1, all_put ha hm.2⟩

end Memory

theorem maskAddr_lt (a : Nat) : maskAddr a < Config.memSize := Nat.mod_lt _ (by decide)

/-- MemRead after MemWrite (20_memory.md R47): the same byte after reduction reads as written, every other as before. -/
theorem State.memRead_memWrite {s : State} (hs : Memory.wf s.mem = true) (a b' : Nat) (b : Byte) :
    (s.memWrite a b).memRead b' = if maskAddr b' = maskAddr a then b else s.memRead b' :=
  Memory.get_put ((Memory.wf_iff _).1 hs).1

theorem State.memWrite_wf {s : State} (hs : Memory.wf s.mem = true) (a : Nat) (b : Byte) :
    Memory.wf (s.memWrite a b).mem = true :=
  Memory.wf_put (maskAddr_lt a) hs

namespace Memory

/-- A read after the bytes of a list were written from an address upwards, fewer than 4096 of them. -/
theorem get_putList {m : Memory} (hm : rising 0 m = true) {bs : List Byte} {a b' : Nat} (hl : bs.length ≤ Config.memSize) :
    get (putList m a bs) b' =
      ((List.range bs.length).find? (fun k => maskAddr (a + k) = b')).elim (get m b') (fun k => bs.getD k 0) := by
  induction bs generalizing m a with
  | nil => rfl
  | cons b bs ih =>
    have hr := rising_put (b := b) (Nat.zero_le (maskAddr a)) hm
    rw [putList, ih hr (by simp only [List.length_cons] at hl; omega), List.length_cons, List.range_succ_eq_map,
      List.find?_cons]
    simp only [Nat.add_zero, List.find?_map, Function.comp_def]
    have hfun : (fun k => decide (maskAddr (a + (k + 1)) = b')) = fun k => decide (maskAddr (a + 1 + k) = b') := by
      funext k; rw [Nat.add_right_comm, Nat.add_assoc]
    simp only [Nat.succ_eq_add_one, hfun]
    by_cases ha : maskAddr a = b'
    · have hnone : (List.range bs.length).find? (fun k => decide (maskAddr (a + 1 + k) = b')) = none := by
        simp only [List.find?_eq_none, List.mem_range, decide_eq_true_eq]
        intro k hk e
        simp only [maskAddr, Config.memSize, List.length_cons] at *
        omega
      simp [hnone, ha, get_put hm]
    · cases (List.range bs.length).find? (fun k => decide (maskAddr (a + 1 + k) = b')) with
      | none => simp [ha, get_put hm, Ne.symm ha]
      | some k => simp [ha]

theorem wf_putList {m : Memory} (bs : List Byte) (a : Nat) (hm : wf m = true) : wf (putList m a bs) = true := by
  induction bs generalizing m a with
  | nil => exact hm
  | cons b bs ih => exact ih (a + 1) (wf_put (maskAddr_lt a) hm)

end Memory

/-- A list of bytes written at a, a + 1, ...: byte k of the list is read back at a + k. -/
theorem State.memRead_memWriteList_inside {s : State} (hs : Memory.wf s.mem = true) {bs : List Byte}
    (hl : bs.length ≤ Config.memSize) {a b' k : Nat} (hk : k < bs.length) (h : maskAddr b' = maskAddr (a + k)) :
    (s.memWriteList a bs).memRead b' = bs.getD k 0 := by
  rw [State.memRead, State.memWriteList_mem,
    Memory.get_putList ((Memory.wf_iff _).1 hs).1 hl]
  cases hf : (List.range bs.length).find? (fun j => decide (maskAddr (a + j) = maskAddr b')) with
  | none =>
    simp only [List.find?_eq_none, List.mem_range, decide_eq_true_eq] at hf
    exact absurd h.symm (hf k hk)
  | some j =>
    have hj := List.find?_some hf
    have hjm := List.mem_range.1 (List.mem_of_find?_eq_some hf)
    simp only [decide_eq_true_eq] at hj
    have : j = k := by
      simp only [maskAddr, Config.memSize] at *
      omega
    simp [this]

/-- A list of bytes written at a, a + 1, ...: every other byte reads as before. -/
theorem State.memRead_memWriteList_outside {s : State} (hs : Memory.wf s.mem = true) {bs : List Byte}
    (hl : bs.length ≤ Config.memSize) {a b' : Nat} (h : ∀ k < bs.length, maskAddr b' ≠ maskAddr (a + k)) :
    (s.memWriteList a bs).memRead b' = s.memRead b' := by
  rw [State.memRead, State.memWriteList_mem,
    Memory.get_putList ((Memory.wf_iff _).1 hs).1 hl]
  have hf : (List.range bs.length).find? (fun j => decide (maskAddr (a + j) = maskAddr b')) = none := by
    simp only [List.find?_eq_none, List.mem_range, decide_eq_true_eq]
    exact fun j hj e => h j hj e.symm
  rw [hf]; rfl

theorem State.memWriteList_wf {s : State} (hs : Memory.wf s.mem = true) (a : Nat) (bs : List Byte) :
    Memory.wf (s.memWriteList a bs).mem = true :=
  Memory.wf_putList bs a hs

end Sys2Proof.Machine
end

