-- ==== Sys2Proof/Laws/Ops.lean ====
section
/-! SUPPORT. What each shared operation over registers, stack, keys and outputs does, said once. -/
namespace Sys2Proof.Machine

namespace State

/-- A register after a register write (10_state.md R17: no aliases). -/
theorem reg_setReg (s : State) (x y : Reg) (b : Byte) : (s.setReg x b).reg y = if y = x then b else s.reg y := by
  simp only [reg, setReg, Fin.getElem_fin, Vector.getElem_set, Fin.ext_iff, eq_comm]

@[simp] theorem reg_setReg_same (s : State) (x : Reg) (b : Byte) : (s.setReg x b).reg x = b := by
  simp [reg_setReg]

theorem reg_setReg_ne (s : State) {x y : Reg} (b : Byte) (h : y ≠ x) : (s.setReg x b).reg y = s.reg y := by
  simp [reg_setReg, h]

/-- Several registers written: each of the list holds its value, every other is as before. -/
theorem reg_setRegs (s : State) (rs : List Reg) (f : Reg → Byte) (y : Reg) :
    (s.setRegs rs f).reg y = if y ∈ rs then f y else s.reg y := by
  induction rs generalizing s with
  | nil => rfl
  | cons r rs ih =>
    have h : s.setRegs (r :: rs) f = (s.setReg r (f r)).setRegs rs f := rfl
    rw [h, ih, reg_setReg]
    by_cases hy : y ∈ rs
    · simp [hy]
    · by_cases hr : y = r <;> simp [hy, hr]

/-- A push on a stack that is not full (10_state.md R25). -/
theorem push_of_not_full {s : State} (w : Word) (h : s.sp ≠ 15) :
    s.push w = { s with sp := s.sp + 1, stack := s.stack.set (s.sp + 1).toNat w (s.sp + 1).isLt } := by
  have : s.stackFull = false := beq_false_of_ne h
  simp [push, this]

/-- A push on a full stack does nothing (R25). -/
theorem push_of_full {s : State} (w : Word) (h : s.sp = 15) : s.push w = s := by
  simp [push, stackFull, h]

/-- The entries after a push: the new top alone has changed. -/
theorem stackAt_push {s : State} (w : Word) (h : s.sp ≠ 15) (k : Fin 16) :
    (s.push w).stackAt k = if k.val = s.sp.toNat + 1 then w else s.stackAt k := by
  have hs : (s.sp + 1).toNat = s.sp.toNat + 1 := by
    have : s.sp.toNat ≠ 15 := fun e => h (BitVec.eq_of_toNat_eq e)
    have := s.sp.isLt
    rw [BitVec.toNat_add, show (1 : BitVec 4).toNat = 1 from rfl]
    omega
  rw [push_of_not_full w h]
  simp only [stackAt, Fin.getElem_fin, Vector.getElem_set, hs, eq_comm]

/-- A pop of a stack that is not empty takes one from SP and clears nothing (R26). -/
theorem pop_of_not_empty {s : State} (h : s.sp ≠ 0) : s.pop = { s with sp := s.sp - 1 } := by
  have : s.stackEmpty = false := beq_false_of_ne h
  simp [pop, this]

/-- A pop of an empty stack does nothing (R26). -/
theorem pop_of_empty {s : State} (h : s.sp = 0) : s.pop = s := by
  simp [pop, stackEmpty, h]

/-- The key scan answers the lowest key down (44_keys_timers.md R117). -/
theorem firstKeyDown_eq_some {s : State} {k : Fin 16} :
    s.firstKeyDown = some k ↔ s.keyAt k = true ∧ ∀ j, j < k → s.keyAt j = false := by
  simp only [firstKeyDown, List.find?_eq_some_iff_getElem, Bool.not_eq_true']
  constructor
  · rintro ⟨hk, n, hn, he, hlt⟩
    have hval : ∀ m (hm : m < ascending.length), (ascending[m]).val = m := by decide
    refine ⟨hk, fun j hj => ?_⟩
    have hjn : j.val < n := by have := hval n hn; rw [he] at this; omega
    have hj' := hlt j.val hjn
    have : ascending[j.val]'(hjn.trans hn) = j := Fin.ext (hval _ _)
    rwa [this] at hj'
  · rintro ⟨hk, hlt⟩
    have hval : ∀ m (hm : m < ascending.length), (ascending[m]).val = m := by decide
    refine ⟨hk, k.val, k.isLt, Fin.ext (hval _ _), fun j hj => ?_⟩
    exact hlt _ (by rw [Fin.lt_def, hval]; exact hj)

/-- The key scan finds nothing exactly when every key is up (R117). -/
theorem firstKeyDown_eq_none {s : State} : s.firstKeyDown = none ↔ ∀ k, s.keyAt k = false := by
  have hall : ∀ k : Fin 16, k ∈ ascending := by decide
  simp only [firstKeyDown, List.find?_eq_none, Bool.not_eq_true]
  exact ⟨fun h k => h k (hall k), fun h k _ => h k⟩

end State

/-- The registers of Fx55 and Fx65 are those up to x. -/
theorem mem_regsUpTo : ∀ x y : Reg, y ∈ regsUpTo x ↔ y ≤ x := by decide

theorem length_regsUpTo : ∀ x : Reg, (regsUpTo x).length = x.val + 1 := by decide

/-- Register k of that list is register k. -/
theorem getD_regsUpTo : ∀ x k : Reg, k ≤ x → (regsUpTo x).getD k.val 0 = k := by decide

@[simp] theorem toNat_zext16 (nnn : Addr) : (zext16 nnn).toNat = nnn.toNat := by
  have := nnn.isLt
  simp only [zext16, BitVec.toNat_setWidth]
  omega

@[simp] theorem toNat_flagByte (f : Bool) : (flagByte f).toNat = if f then 1 else 0 := by cases f <;> rfl

/-- A timer after a tick is one less, and stays at 0 (44_keys_timers.md R120). -/
theorem toNat_countDown (b : Byte) : (countDown b).toNat = b.toNat - 1 := by
  unfold countDown
  split
  · subst_vars; rfl
  · rename_i h
    have : b.toNat ≠ 0 := fun e => h (BitVec.eq_of_toNat_eq e)
    have := b.isLt
    rw [BitVec.toNat_sub, show (1 : Byte).toNat = 1 from rfl]
    omega

/-! What the outputs are once the pulses are low: no diagnostic, the others as before. -/

@[simp] theorem Outputs.quiet_quiet (o : Outputs) : o.quiet.quiet = o.quiet := rfl
@[simp] theorem Outputs.quiet_low : Outputs.low.quiet = Outputs.low := rfl
@[simp] theorem Outputs.quiet_romTruncated (o : Outputs) : o.quiet.romTruncated = o.romTruncated := rfl
@[simp] theorem Outputs.quiet_busy (o : Outputs) : o.quiet.busy = o.busy := rfl
@[simp] theorem Outputs.quiet_stepDone (o : Outputs) : o.quiet.stepDone = o.stepDone := rfl
@[simp] theorem Outputs.quiet_toneTrigger (o : Outputs) : o.quiet.toneTrigger = false := rfl
@[simp] theorem Outputs.diagCount_quiet (o : Outputs) : o.quiet.diagCount = 0 := rfl

end Sys2Proof.Machine
end

