-- ==== Sys2Proof/Laws/Draw.lean ====
section
/-! SUPPORT. What the draw unit does to each cell, and when it reports a collision (43_display.md R107-R110). -/
namespace Sys2Proof.Machine

/-- A cell after the XOR of one cell. -/
theorem pixel_xorPixel (f : Frame) (y y' : Fin 32) (x x' : Fin 64) (b : Bool) :
    Frame.pixel (Frame.xorPixel f y x b) y' x' = (Frame.pixel f y' x' ^^ (b && decide (y' = y ∧ x' = x))) := by
  unfold Frame.pixel Frame.xorPixel
  by_cases hy : y' = y
  · subst hy
    have hx := x'.isLt
    cases b
    · simp
    · simp only [Fin.getElem_fin, Vector.getElem_set_self, BitVec.getLsbD_xor, BitVec.getLsbD_shiftLeft,
        BitVec.getLsbD_setWidth, BitVec.getLsbD_ofBool, true_and, Bool.true_and]
      congr 1
      by_cases h : x' = x
      · subst h; simp
      · have : ¬x'.val = x.val := fun e => h (Fin.ext e)
        simp only [h, decide_false]
        by_cases hlt : x'.val < x.val
        · simp [hlt]
        · have : ¬ (x'.val - x.val = 0) := by omega
          simp [this]
  · have : y.val ≠ y'.val := fun e => hy (Fin.ext e.symm)
    simp [hy, this]

/-- Whether one row byte drawn at column x0 has a 1-bit on column x. -/
def rowBit (bits : Byte) (x0 : Nat) (x : Fin 64) : Bool :=
  decide (x0 ≤ x.val ∧ x.val < x0 + 8) && bits.getLsbD (7 - (x.val - x0))

/-- The columns of a list, each at most once: the cells they hit toggle under a 1-bit. -/
theorem drawCells_spec (bits : Byte) (x0 : Nat) (y : Fin 32) (cols : List Nat) (hn : cols.Nodup) (d : Frame × Bool) :
    (∀ y' x', Frame.pixel (cols.foldl (drawCell bits x0 y) d).1 y' x' =
      (Frame.pixel d.1 y' x' ^^
        (decide (y' = y ∧ ∃ c ∈ cols, x0 + c = x'.val) && bits.getLsbD (7 - (x'.val - x0))))) ∧
    ((cols.foldl (drawCell bits x0 y) d).2 = true ↔ d.2 = true ∨
      ∃ x' : Fin 64, (∃ c ∈ cols, x0 + c = x'.val) ∧ bits.getLsbD (7 - (x'.val - x0)) = true ∧
        Frame.pixel d.1 y x' = true) := by
  induction cols generalizing d with
  | nil => simp
  | cons c cols ih =>
    obtain ⟨hc, hn⟩ := List.nodup_cons.1 hn
    obtain ⟨ih1, ih2⟩ := ih hn (drawCell bits x0 y d c)
    by_cases h : x0 + c < 64
    · have hcell : drawCell bits x0 y d c = (Frame.xorPixel d.1 y ⟨x0 + c, h⟩ (bits.getLsbD (7 - c)),
          d.2 || (bits.getLsbD (7 - c) && Frame.pixel d.1 y ⟨x0 + c, h⟩)) := by simp [drawCell, h]
      have hold : ∀ x' : Fin 64, (∃ j ∈ cols, x0 + j = x'.val) → x' ≠ ⟨x0 + c, h⟩ := by
        rintro x' ⟨j, hj, e⟩ rfl
        have : j = c := by simpa using e
        exact hc (this ▸ hj)
      constructor
      · intro y' x'
        rw [List.foldl_cons, ih1, hcell]
        simp only [pixel_xorPixel, List.mem_cons, exists_eq_or_imp]
        by_cases hy : y' = y
        · by_cases hx : x' = ⟨x0 + c, h⟩
          · have hno : ¬ ∃ j ∈ cols, x0 + j = x'.val := fun e => hold x' e hx
            simp [hy, hx] at hno ⊢
            simp [hno]
          · have hne : ¬ x0 + c = x'.val := fun e => hx (Fin.ext e.symm)
            simp [hy, hx, hne]
        · simp [hy]
      · rw [List.foldl_cons, ih2, hcell]
        simp only [pixel_xorPixel, List.mem_cons, exists_eq_or_imp, Bool.or_eq_true, Bool.and_eq_true]
        constructor
        · rintro ((h1 | ⟨hb, hp⟩) | ⟨x', hx', hb, hp⟩)
          · exact .inl h1
          · exact .inr ⟨⟨x0 + c, h⟩, .inl rfl, by simpa using hb, hp⟩
          · exact .inr ⟨x', .inr hx', hb, by simpa [hold x' hx'] using hp⟩
        · rintro (h1 | ⟨x', e | hx', hb, hp⟩)
          · exact .inl (.inl h1)
          · obtain rfl : x' = ⟨x0 + c, h⟩ := Fin.ext e.symm
            exact .inl (.inr ⟨by simpa using hb, hp⟩)
          · exact .inr ⟨x', hx', hb, by simpa [hold x' hx'] using hp⟩
    · have hcell : drawCell bits x0 y d c = d := by simp [drawCell, h]
      have hout : ∀ x' : Fin 64, ¬ x0 + c = x'.val := fun x' e => h (e ▸ x'.isLt)
      rw [hcell] at ih1 ih2
      rw [List.foldl_cons, hcell]
      refine ⟨fun y' x' => ?_, ?_⟩
      · rw [ih1]; simp [hout x']
      · rw [ih2]; simp [hout]

theorem exists_column {x0 x : Nat} : (∃ c ∈ [0, 1, 2, 3, 4, 5, 6, 7], x0 + c = x) ↔ x0 ≤ x ∧ x < x0 + 8 := by
  simp only [List.mem_cons, List.not_mem_nil, or_false]
  constructor
  · rintro ⟨c, hc, rfl⟩; omega
  · intro h; exact ⟨x - x0, by omega, by omega⟩

/-- One row: its 1-bits toggle their cells; a set cell under a 1-bit is a collision. -/
theorem drawRow_spec (bits : Byte) (x0 : Nat) (y : Fin 32) (d : Frame × Bool) :
    (∀ y' x', Frame.pixel (drawRow bits x0 y d).1 y' x' =
      (Frame.pixel d.1 y' x' ^^ (decide (y' = y) && rowBit bits x0 x'))) ∧
    ((drawRow bits x0 y d).2 = true ↔ d.2 = true ∨
      ∃ x' : Fin 64, rowBit bits x0 x' = true ∧ Frame.pixel d.1 y x' = true) := by
  obtain ⟨h1, h2⟩ := drawCells_spec bits x0 y [0, 1, 2, 3, 4, 5, 6, 7] (by decide) d
  constructor
  · intro y' x'
    rw [drawRow, h1, rowBit]
    simp only [exists_column, Bool.decide_and, Bool.and_assoc]
  · rw [drawRow, h2]
    simp only [exists_column, rowBit, Bool.and_eq_true, decide_eq_true_eq, and_assoc]

/-- The 1-bits of the rows from `row` on, `left` of them, of a sprite drawn at (x0, y0). -/
def rowsBit (mem : Memory) (base x0 y0 left row : Nat) (y : Fin 32) (x : Fin 64) : Bool :=
  decide (y0 + row ≤ y.val ∧ y.val < y0 + row + left) && rowBit (Memory.get mem (maskAddr (base + (y.val - y0)))) x0 x

/-- Several rows: the 1-bits on the screen toggle their cells; a set cell under one of them is a collision. -/
theorem drawRows_spec (mem : Memory) (base x0 y0 left row : Nat) (d : Frame × Bool) :
    (∀ y x, Frame.pixel (drawRows mem base x0 y0 left row d).1 y x =
      (Frame.pixel d.1 y x ^^ rowsBit mem base x0 y0 left row y x)) ∧
    ((drawRows mem base x0 y0 left row d).2 = true ↔ d.2 = true ∨
      ∃ y x, rowsBit mem base x0 y0 left row y x = true ∧ Frame.pixel d.1 y x = true) := by
  induction left generalizing row d with
  | zero =>
    have hz : ∀ y x, rowsBit mem base x0 y0 0 row y x = false := by
      intro y x
      have : ¬ (y0 + row ≤ y.val ∧ y.val < y0 + row + 0) := by omega
      simp only [rowsBit, this, decide_false, Bool.false_and]
    simp [drawRows, hz]
  | succ left ih =>
    by_cases h : y0 + row < 32
    · have hrow : base + (y0 + row - y0) = base + row := by omega
      obtain ⟨r1, r2⟩ := drawRow_spec (Memory.get mem (maskAddr (base + row))) x0 ⟨y0 + row, h⟩ d
      obtain ⟨i1, i2⟩ := ih (row + 1) (drawRow (Memory.get mem (maskAddr (base + row))) x0 ⟨y0 + row, h⟩ d)
      have hsplit : ∀ y x, rowsBit mem base x0 y0 (left + 1) row y x =
          if y = ⟨y0 + row, h⟩ then rowBit (Memory.get mem (maskAddr (base + row))) x0 x
          else rowsBit mem base x0 y0 left (row + 1) y x := by
        intro y x
        by_cases hy : y = ⟨y0 + row, h⟩
        · subst hy; simp [rowsBit]
        · have hv : y.val ≠ y0 + row := fun e => hy (Fin.ext e)
          have : (y0 + row ≤ y.val ∧ y.val < y0 + row + (left + 1)) ↔
              (y0 + (row + 1) ≤ y.val ∧ y.val < y0 + (row + 1) + left) := by omega
          simp only [rowsBit, hy, if_false, this]
      have hfirst : ∀ x, rowsBit mem base x0 y0 left (row + 1) ⟨y0 + row, h⟩ x = false := by
        intro x
        have : ¬ (y0 + (row + 1) ≤ y0 + row ∧ y0 + row < y0 + (row + 1) + left) := by omega
        simp only [rowsBit, this, decide_false, Bool.false_and]
      have hstep : drawRows mem base x0 y0 (left + 1) row d = drawRows mem base x0 y0 left (row + 1)
          (drawRow (Memory.get mem (maskAddr (base + row))) x0 ⟨y0 + row, h⟩ d) := by
        simp [drawRows, h]
      rw [hstep]
      constructor
      · intro y x
        rw [i1, r1, hsplit]
        by_cases hy : y = ⟨y0 + row, h⟩
        · subst hy; simp [hfirst]
        · simp [hy]
      · rw [i2, r2]
        constructor
        · rintro ((h1 | ⟨x, hb, hp⟩) | ⟨y, x, hb, hp⟩)
          · exact .inl h1
          · exact .inr ⟨⟨y0 + row, h⟩, x, by simpa [hsplit] using hb, hp⟩
          · have hy : y ≠ ⟨y0 + row, h⟩ := fun e => by rw [e, hfirst] at hb; exact absurd hb (by decide)
            rw [r1] at hp
            exact .inr ⟨y, x, by simpa [hsplit, hy] using hb, by simpa [hy] using hp⟩
        · rintro (h1 | ⟨y, x, hb, hp⟩)
          · exact .inl (.inl h1)
          · rw [hsplit] at hb
            by_cases hy : y = ⟨y0 + row, h⟩
            · subst hy; exact .inl (.inr ⟨x, by simpa using hb, hp⟩)
            · exact .inr ⟨y, x, by simpa [hy] using hb, by rw [r1]; simpa [hy] using hp⟩
    · have hstop : drawRows mem base x0 y0 (left + 1) row d = d := by simp [drawRows, h]
      have hnone : ∀ (y : Fin 32) x, rowsBit mem base x0 y0 (left + 1) row y x = false := by
        intro y x
        have := y.isLt
        have : ¬ (y0 + row ≤ y.val ∧ y.val < y0 + row + (left + 1)) := by omega
        simp only [rowsBit, this, decide_false, Bool.false_and]
      rw [hstop]
      simp [hnone]

/-- The bits that a whole draw puts on the screen are those of the claims' spriteBit. -/
theorem rowsBit_eq_spriteBit (s : State) (x y : Reg) (n : Nat) (yy : Fin 32) (xx : Fin 64) :
    rowsBit s.mem s.i.toNat (s.startColumn x) (s.startRow y) n 0 yy xx = spriteBit s x y n yy xx := by
  unfold rowsBit rowBit spriteBit
  rw [Bool.eq_iff_iff]
  simp only [Bool.and_eq_true, decide_eq_true_eq, and_assoc, Nat.add_zero]
  rfl

end Sys2Proof.Machine
end

