-- ==== Sys2Proof/Laws/PerInstr.lean ====
section
/-! SUPPORT. A statement for every instruction, made constructor by constructor. -/
namespace Sys2Proof.Laws.FamilyDigit

/-- The family digit that 30_encoding.md R67 gives an instruction. -/
def digit : Instr → Nat
  | .cls => 0x0
  | .ret => 0x0
  | .jp _ => 0x1
  | .call _ => 0x2
  | .seImm _ _ => 0x3
  | .sneImm _ _ => 0x4
  | .seReg _ _ => 0x5
  | .ldImm _ _ => 0x6
  | .addImm _ _ => 0x7
  | .ldReg _ _ => 0x8
  | .orReg _ _ => 0x8
  | .andReg _ _ => 0x8
  | .xorReg _ _ => 0x8
  | .addReg _ _ => 0x8
  | .subReg _ _ => 0x8
  | .shr _ _ => 0x8
  | .subn _ _ => 0x8
  | .shl _ _ => 0x8
  | .sneReg _ _ => 0x9
  | .ldI _ => 0xA
  | .jpV0 _ => 0xB
  | .rnd _ _ => 0xC
  | .drw _ _ _ => 0xD
  | .skp _ => 0xE
  | .sknp _ => 0xE
  | .ldVxDT _ => 0xF
  | .ldVxK _ => 0xF
  | .ldDTVx _ => 0xF
  | .ldSTVx _ => 0xF
  | .addI _ => 0xF
  | .ldF _ => 0xF
  | .ldB _ => 0xF
  | .storeRegs _ => 0xF
  | .loadRegs _ => 0xF

/-- The top digit of a well-formed instruction's word is the family of its row (R67). -/
def Statement (i : Instr) : Prop := i.wellFormed = true → (encode i).toNat / 0x1000 = digit i

theorem cls : Statement .cls := fun _ => rfl
theorem ret : Statement .ret := fun _ => rfl
theorem jp (nnn : Addr) : Statement (.jp nnn) := fun _ => by
  have := nnn.isLt; rw [encode, toNat_placeNNN nnn (by decide)]; simp only [digit]; omega
theorem call (nnn : Addr) : Statement (.call nnn) := fun _ => by
  have := nnn.isLt; rw [encode, toNat_placeNNN nnn (by decide)]; simp only [digit]; omega
theorem seImm (x : Reg) (nn : Byte) : Statement (.seImm x nn) := fun _ => by
  have := x.isLt; have := nn.isLt; rw [encode, toNat_placeXNN x nn (by decide)]; simp only [digit]; omega
theorem sneImm (x : Reg) (nn : Byte) : Statement (.sneImm x nn) := fun _ => by
  have := x.isLt; have := nn.isLt; rw [encode, toNat_placeXNN x nn (by decide)]; simp only [digit]; omega
theorem seReg (x y : Reg) : Statement (.seReg x y) := fun _ => by
  have := x.isLt; have := y.isLt; rw [encode, toNat_placeXY x y (by decide)]; simp only [digit]; omega
theorem ldImm (x : Reg) (nn : Byte) : Statement (.ldImm x nn) := fun _ => by
  have := x.isLt; have := nn.isLt; rw [encode, toNat_placeXNN x nn (by decide)]; simp only [digit]; omega
theorem addImm (x : Reg) (nn : Byte) : Statement (.addImm x nn) := fun _ => by
  have := x.isLt; have := nn.isLt; rw [encode, toNat_placeXNN x nn (by decide)]; simp only [digit]; omega
theorem ldReg (x y : Reg) : Statement (.ldReg x y) := fun _ => by
  have := x.isLt; have := y.isLt; rw [encode, toNat_placeXY x y (by decide)]; simp only [digit]; omega
theorem orReg (x y : Reg) : Statement (.orReg x y) := fun _ => by
  have := x.isLt; have := y.isLt; rw [encode, toNat_placeXY x y (by decide)]; simp only [digit]; omega
theorem andReg (x y : Reg) : Statement (.andReg x y) := fun _ => by
  have := x.isLt; have := y.isLt; rw [encode, toNat_placeXY x y (by decide)]; simp only [digit]; omega
theorem xorReg (x y : Reg) : Statement (.xorReg x y) := fun _ => by
  have := x.isLt; have := y.isLt; rw [encode, toNat_placeXY x y (by decide)]; simp only [digit]; omega
theorem addReg (x y : Reg) : Statement (.addReg x y) := fun _ => by
  have := x.isLt; have := y.isLt; rw [encode, toNat_placeXY x y (by decide)]; simp only [digit]; omega
theorem subReg (x y : Reg) : Statement (.subReg x y) := fun _ => by
  have := x.isLt; have := y.isLt; rw [encode, toNat_placeXY x y (by decide)]; simp only [digit]; omega
theorem shr (x y : Reg) : Statement (.shr x y) := fun _ => by
  have := x.isLt; have := y.isLt; rw [encode, toNat_placeXY x y (by decide)]; simp only [digit]; omega
theorem subn (x y : Reg) : Statement (.subn x y) := fun _ => by
  have := x.isLt; have := y.isLt; rw [encode, toNat_placeXY x y (by decide)]; simp only [digit]; omega
theorem shl (x y : Reg) : Statement (.shl x y) := fun _ => by
  have := x.isLt; have := y.isLt; rw [encode, toNat_placeXY x y (by decide)]; simp only [digit]; omega
theorem sneReg (x y : Reg) : Statement (.sneReg x y) := fun _ => by
  have := x.isLt; have := y.isLt; rw [encode, toNat_placeXY x y (by decide)]; simp only [digit]; omega
theorem ldI (nnn : Addr) : Statement (.ldI nnn) := fun _ => by
  have := nnn.isLt; rw [encode, toNat_placeNNN nnn (by decide)]; simp only [digit]; omega
theorem jpV0 (nnn : Addr) : Statement (.jpV0 nnn) := fun _ => by
  have := nnn.isLt; rw [encode, toNat_placeNNN nnn (by decide)]; simp only [digit]; omega
theorem rnd (x : Reg) (nn : Byte) : Statement (.rnd x nn) := fun _ => by
  have := x.isLt; have := nn.isLt; rw [encode, toNat_placeXNN x nn (by decide)]; simp only [digit]; omega
theorem drw (x y : Reg) (n : Nat) : Statement (.drw x y n) := fun h => by
  have hn : n < 16 := of_decide_eq_true h
  have := x.isLt; have := y.isLt; rw [encode, toNat_placeXY x y (by omega)]; simp only [digit]; omega
theorem skp (x : Reg) : Statement (.skp x) := fun _ => by
  have := x.isLt; rw [encode, toNat_placeX x (by decide)]; simp only [digit]; omega
theorem sknp (x : Reg) : Statement (.sknp x) := fun _ => by
  have := x.isLt; rw [encode, toNat_placeX x (by decide)]; simp only [digit]; omega
theorem ldVxDT (x : Reg) : Statement (.ldVxDT x) := fun _ => by
  have := x.isLt; rw [encode, toNat_placeX x (by decide)]; simp only [digit]; omega
theorem ldVxK (x : Reg) : Statement (.ldVxK x) := fun _ => by
  have := x.isLt; rw [encode, toNat_placeX x (by decide)]; simp only [digit]; omega
theorem ldDTVx (x : Reg) : Statement (.ldDTVx x) := fun _ => by
  have := x.isLt; rw [encode, toNat_placeX x (by decide)]; simp only [digit]; omega
theorem ldSTVx (x : Reg) : Statement (.ldSTVx x) := fun _ => by
  have := x.isLt; rw [encode, toNat_placeX x (by decide)]; simp only [digit]; omega
theorem addI (x : Reg) : Statement (.addI x) := fun _ => by
  have := x.isLt; rw [encode, toNat_placeX x (by decide)]; simp only [digit]; omega
theorem ldF (x : Reg) : Statement (.ldF x) := fun _ => by
  have := x.isLt; rw [encode, toNat_placeX x (by decide)]; simp only [digit]; omega
theorem ldB (x : Reg) : Statement (.ldB x) := fun _ => by
  have := x.isLt; rw [encode, toNat_placeX x (by decide)]; simp only [digit]; omega
theorem storeRegs (x : Reg) : Statement (.storeRegs x) := fun _ => by
  have := x.isLt; rw [encode, toNat_placeX x (by decide)]; simp only [digit]; omega
theorem loadRegs (x : Reg) : Statement (.loadRegs x) := fun _ => by
  have := x.isLt; rw [encode, toNat_placeX x (by decide)]; simp only [digit]; omega

end Sys2Proof.Laws.FamilyDigit
end

