-- ==== Sys2Proof/Tests/Slice0.lean ====
section
/-! SUPPORT. Tests of the model, and for every statement with hypotheses a witness that meets them. Every expected value is
taken from the spec: the vectors of 95_test_vectors.md (named in the docstrings: E, CF, A, M, D, K, T, H), or a rule. -/
namespace Sys2Proof.Tests
open Sys2Proof Sys2Proof.Machine

/-- The instruction answers a next state, and that state satisfies p. -/
def after (i : Instr) (s : State) (p : State → Bool) : Bool :=
  match exec i s with
  | .next t => p t
  | _ => false

/-- The step answers a next state, and that state satisfies p. -/
def stepped (s : State) (p : State → Bool) : Bool :=
  match step s with
  | .next t => p t
  | _ => false

/-- The instruction answers a next state. -/
def runs (i : Instr) (s : State) : Bool := after i s (fun _ => true)

/-- The state after reset with some registers set. -/
def regs (rs : List (Reg × Byte)) : State := rs.foldl (fun s r => s.setReg r.1 r.2) State.reset

/-- A state at another pc. -/
def at_ (pc : Word) (s : State) : State := s.jumpTo pc

/-- A stack of calls from reset: SP = n, every return address 0x0202. -/
def calls (n : Nat) : State := (List.replicate n 0x202).foldl (fun s w => s.push w) State.reset

/-- The state after reset with other parameter values than the defaults. -/
def cautious : State := { State.reset with params := { Params.default with popEmpty := .fault, keyIndexOor := .lowNibble } }

/-! ### Syntax and encoding -/

/-- The check refuses a draw of 16 rows (00_scope.md R7). -/
theorem test_wellFormed_refuses_16_rows : (Instr.drw 0 1 16).wellFormed = false := by decide

theorem test_decode_control : decodeWord 0x00EE = .ok .ret ∧ decodeWord 0x1ABC = .ok (.jp 0xABC) ∧
    decodeWord 0x2300 = .ok (.call 0x300) ∧ decodeWord 0x3122 = .ok (.seImm 1 0x22) ∧
    decodeWord 0x4123 = .ok (.sneImm 1 0x23) ∧ decodeWord 0x5230 = .ok (.seReg 2 3) ∧
    decodeWord 0x9230 = .ok (.sneReg 2 3) ∧ decodeWord 0xBFFF = .ok (.jpV0 0xFFF) := ⟨rfl, rfl, rfl, rfl, rfl, rfl, rfl, rfl⟩

theorem test_decode_alu_immediate : decodeWord 0x63AB = .ok (.ldImm 3 0xAB) ∧ decodeWord 0x7215 = .ok (.addImm 2 0x15) ∧
    decodeWord 0xC30F = .ok (.rnd 3 0x0F) := ⟨rfl, rfl, rfl⟩

theorem test_decode_alu_registers : decodeWord 0x8120 = .ok (.ldReg 1 2) ∧ decodeWord 0x8121 = .ok (.orReg 1 2) ∧
    decodeWord 0x8122 = .ok (.andReg 1 2) ∧ decodeWord 0x8123 = .ok (.xorReg 1 2) ∧ decodeWord 0x8124 = .ok (.addReg 1 2) ∧
    decodeWord 0x81F5 = .ok (.subReg 1 15) ∧ decodeWord 0x8126 = .ok (.shr 1 2) ∧ decodeWord 0x8F27 = .ok (.subn 15 2) ∧
    decodeWord 0x810E = .ok (.shl 1 0) := ⟨rfl, rfl, rfl, rfl, rfl, rfl, rfl, rfl, rfl⟩

theorem test_decode_index_memory : decodeWord 0xA123 = .ok (.ldI 0x123) ∧ decodeWord 0xF21E = .ok (.addI 2) ∧
    decodeWord 0xF129 = .ok (.ldF 1) ∧ decodeWord 0xF133 = .ok (.ldB 1) ∧ decodeWord 0xF255 = .ok (.storeRegs 2) ∧
    decodeWord 0xFF65 = .ok (.loadRegs 15) := ⟨rfl, rfl, rfl, rfl, rfl, rfl⟩

theorem test_decode_display_keys_timers : decodeWord 0x00E0 = .ok .cls ∧ decodeWord 0xD125 = .ok (.drw 1 2 5) ∧
    decodeWord 0xE19E = .ok (.skp 1) ∧ decodeWord 0xE1A1 = .ok (.sknp 1) ∧ decodeWord 0xF307 = .ok (.ldVxDT 3) ∧
    decodeWord 0xF50A = .ok (.ldVxK 5) ∧ decodeWord 0xF415 = .ok (.ldDTVx 4) ∧ decodeWord 0xF418 = .ok (.ldSTVx 4) :=
  ⟨rfl, rfl, rfl, rfl, rfl, rfl, rfl, rfl⟩

/-- E1 to E8. -/
theorem test_undecoded_words : decodeWord 0x0000 = .error .undecodedFamily0 ∧ decodeWord 0x0123 = .error .undecodedFamily0 ∧
    decodeWord 0x00E1 = .error .undecodedFamily0 ∧ decodeWord 0x5231 = .error .undecodedFamily5 ∧
    decodeWord 0x8128 = .error .undecodedFamily8 ∧ decodeWord 0x812F = .error .undecodedFamily8 ∧
    decodeWord 0x9231 = .error .undecodedFamily9 ∧ decodeWord 0xE19F = .error .undecodedFamilyE ∧
    decodeWord 0xF156 = .error .undecodedFamilyF := ⟨rfl, rfl, rfl, rfl, rfl, rfl, rfl, rfl, rfl⟩

/-- Words written by the encoder, beside the spec's patterns. -/
theorem test_encode : encode (.jp 0xABC) = 0x1ABC ∧ encode (.drw 1 2 5) = 0xD125 ∧ encode (.shl 1 0) = 0x810E ∧
    encodeBytes (.ldI 0x123) = [0xA1, 0x23] := ⟨rfl, rfl, rfl, rfl⟩

/-- The table's numbering, and a truncated word. -/
theorem test_decodeTableWord : decodeTableWord 16 0xD125 = some (.drw 1 2 5) ∧ decodeTableWord 16 0x5231 = none := ⟨rfl, rfl⟩

theorem test_decode_refuses_one_byte : decode [0x12] = .error .tooShort := rfl

/-! ### The step -/

/-- E9: big-endian fetch; the word placed is the word fetched. -/
theorem test_fetch_big_endian : (State.reset.memWriteList 0x200 [0x12, 0x34]).fetchWord = 0x1234 ∧
    (State.reset.withFetchWord 16 0x1234).fetchWord = 0x1234 := by decide

/-- E10: the second byte of a fetch at 0x0FFF is Mem[0x000]; the word is undecoded. -/
theorem test_step_at_end_of_memory :
    stepped (at_ 0xFFF State.reset) (fun t => t.pc == 0x1001 && t.out.diagUndecoded) = true := by decide

/-- CF22. -/
theorem test_step_wraps_pc :
    stepped ((at_ 0xFFFE State.reset).withFetchWord 16 0x6000) (fun t => t.pc == 0 && t.reg 0 == 0) = true := by decide

/-- R37: the diagnostic of a step is low after the next one. -/
theorem test_step_clears_the_pulse :
    stepped ({ State.reset with out := { Outputs.low with diagUndecoded := true } }.withFetchWord 16 0x6000)
      (fun t => t.out == Outputs.low) = true := by decide

/-! ### Control transfer -/

/-- CF2. -/
theorem test_jp : after (.jp 0x203) State.reset (fun t => t.pc == 0x203) = true := by decide
/-- CF5. -/
theorem test_call : after (.call 0x300) (at_ 0xFFFE State.reset)
    (fun t => t.sp == 1 && t.stackAt 1 == 0 && t.pc == 0x300) = true := by decide
/-- CF4. -/
theorem test_call_dropped : after (.call 0x300) (at_ 0x400 (calls 15))
    (fun t => t.sp == 15 && t.stack == (calls 15).stack && t.pc == 0x402 && t.out.diagCallDropped) = true := by decide
/-- CF6. -/
theorem test_ret : after .ret (at_ 0x300 (calls 1))
    (fun t => t.pc == 0x202 && t.sp == 0 && t.stackAt 1 == 0x202) = true := by decide
/-- CF7. -/
theorem test_ret_dropped : after .ret (at_ 0x300 State.reset)
    (fun t => t.pc == 0x302 && t.sp == 0 && t.out.diagReturnDropped) = true := by decide
/-- CF9. -/
theorem test_seImm : after (.seImm 1 0x22) (regs [(1, 0x22)]) (fun t => t.pc == 0x204) = true := by decide
/-- CF11. -/
theorem test_sneImm : after (.sneImm 1 0x22) (regs [(1, 0x22)]) (fun t => t.pc == 0x202) = true := by decide
/-- CF13. -/
theorem test_seReg : after (.seReg 2 3) (regs [(2, 0x40), (3, 0x41)]) (fun t => t.pc == 0x202) = true := by decide
/-- CF15. -/
theorem test_sneReg : after (.sneReg 2 3) (regs [(2, 0x40), (3, 0x41)]) (fun t => t.pc == 0x204) = true := by decide
/-- CF19. -/
theorem test_jpV0 : after (.jpV0 0xFFF) (regs [(0, 0xFF)]) (fun t => t.pc == 0x10FE) = true := by decide

/-! ### Registers and arithmetic -/

/-- A1. -/
theorem test_ldImm : after (.ldImm 3 0xAB) State.reset (fun t => t.reg 3 == 0xAB && t.pc == 0x202) = true := by decide
/-- A3. -/
theorem test_addImm : after (.addImm 2 0x15) (regs [(2, 0xF0), (15, 0x77)])
    (fun t => t.reg 2 == 0x05 && t.reg 15 == 0x77) = true := by decide
/-- A5. -/
theorem test_ldReg : after (.ldReg 1 2) (regs [(1, 0x12), (2, 0x34)])
    (fun t => t.reg 1 == 0x34 && t.reg 2 == 0x34) = true := by decide
/-- A6. -/
theorem test_orReg : after (.orReg 1 2) (regs [(1, 0x0F), (2, 0xF0), (15, 0x55)])
    (fun t => t.reg 1 == 0xFF && t.reg 15 == 0x55) = true := by decide
/-- A7. -/
theorem test_andReg : after (.andReg 1 2) (regs [(1, 0x3C), (2, 0x0F)]) (fun t => t.reg 1 == 0x0C) = true := by decide
/-- A8. -/
theorem test_xorReg : after (.xorReg 1 2) (regs [(1, 0x3C), (2, 0x0F)]) (fun t => t.reg 1 == 0x33) = true := by decide
/-- A10. -/
theorem test_addReg : after (.addReg 1 2) (regs [(1, 0xFF), (2, 0x01)])
    (fun t => t.reg 1 == 0x00 && t.reg 15 == 0x01) = true := by decide
/-- A16: the sum uses the old VF. -/
theorem test_addReg_from_vf : after (.addReg 1 15) (regs [(1, 0x10), (15, 0x05)])
    (fun t => t.reg 1 == 0x15 && t.reg 15 == 0x00) = true := by decide
/-- A17. -/
theorem test_subReg : after (.subReg 1 2) (regs [(1, 0x01), (2, 0x02)])
    (fun t => t.reg 1 == 0xFF && t.reg 15 == 0x00) = true := by decide
/-- A23: the difference uses the new VF. -/
theorem test_subReg_from_vf : after (.subReg 1 15) (regs [(1, 0x05), (15, 0x03)])
    (fun t => t.reg 1 == 0x04 && t.reg 15 == 0x01) = true := by decide
/-- A27. -/
theorem test_shr : after (.shr 1 2) (regs [(1, 0x02), (2, 0xFF)])
    (fun t => t.reg 1 == 0x01 && t.reg 15 == 0x00) = true := by decide
/-- A28. -/
theorem test_shr_of_vf : after (.shr 15 0) (regs [(15, 0x03)]) (fun t => t.reg 15 == 0x00) = true := by decide
/-- A30. -/
theorem test_subn : after (.subn 1 2) (regs [(1, 0x05), (2, 0x02)])
    (fun t => t.reg 1 == 0xFD && t.reg 15 == 0x00) = true := by decide
/-- A33. -/
theorem test_subn_from_vf : after (.subn 1 15) (regs [(1, 0x02), (15, 0x05)])
    (fun t => t.reg 1 == 0xFF && t.reg 15 == 0x01) = true := by decide
/-- A35. -/
theorem test_shl : after (.shl 1 0) (regs [(1, 0x81)])
    (fun t => t.reg 1 == 0x02 && t.reg 15 == 0x01) = true := by decide
/-- A37. -/
theorem test_shl_of_vf : after (.shl 15 0) (regs [(15, 0x81)]) (fun t => t.reg 15 == 0x02) = true := by decide
/-- A39. -/
theorem test_rnd : after (.rnd 3 0x0F) (State.reset.setRandPort (some 0xA5)) (fun t => t.reg 3 == 0x05) = true := by
  decide

/-! ### Index register and memory -/

/-- M1. -/
theorem test_ldI : after (.ldI 0x123) State.reset (fun t => t.i == 0x123) = true := by decide
/-- M4. -/
theorem test_addI : after (.addI 1) ((regs [(1, 0x02)]).setIndex 0xFFFF) (fun t => t.i == 0x0001) = true := by decide
/-- M7. -/
theorem test_ldF : after (.ldF 1) (regs [(1, 0xFF)]) (fun t => t.i == 0x04FB) = true := by decide
/-- M13: the third digit wraps onto the font. -/
theorem test_ldB : after (.ldB 1) ((regs [(1, 123)]).setIndex 0xFFE)
    (fun t => t.memRead 0xFFE == 1 && t.memRead 0xFFF == 2 && t.memRead 0 == 3 && Memory.wf t.mem) = true := by decide
/-- M17. -/
theorem test_storeRegs : after (.storeRegs 2) ((regs [(0, 0x0A), (1, 0x0B), (2, 0x0C)]).setIndex 0xFFFE)
    (fun t => t.mem == [(0x000, 0x0C), (0xFFE, 0x0A), (0xFFF, 0x0B)]) = true := by decide
/-- M20: the font, and an end at V[4]. -/
theorem test_loadRegs : after (.loadRegs 4) (regs [(5, 0x77)])
    (fun t => (t.v.toList.take 6) == [0xF0, 0x90, 0x90, 0x90, 0xF0, 0x77]) = true := by decide

/-! ### Display -/

/-- The state of the display vectors: bytes at 0x300, I there. -/
def sprite (bs : List Byte) (rs : List (Reg × Byte)) : State := ((regs rs).memWriteList 0x300 bs).setIndex 0x300

/-- D1. -/
theorem test_cls : after .cls { regs [(15, 0x55)] with fb := Vector.replicate 32 0xFF }
    (fun t => t.fb == Vector.replicate 32 0 && t.reg 15 == 0x55) = true := by decide
/-- D12 and D13: bit 7 is the leftmost column; a column past the edge is skipped. -/
theorem test_drw_clips : after (.drw 0 1 1) (sprite [0xC0] [(0, 0x3F), (1, 0x1F)])
    (fun t => t.fb == (Vector.replicate 32 0).set 31 (BitVec.twoPow 64 63) && t.reg 15 == 0) = true := by decide
/-- D8: the flag stays 1 after a later row without collision. -/
theorem test_drw_collides : after (.drw 0 1 2) { sprite [0x80, 0x80] [] with fb := (Vector.replicate 32 0).set 0 1 }
    (fun t => t.fb == (Vector.replicate 32 0).set 1 1 && t.reg 15 == 1 && t.pc == 0x202) = true := by decide

/-! ### Keys and timers -/

/-- K1. -/
theorem test_skp : after (.skp 1) ((regs [(1, 5)]).setKey 0x20) (fun t => t.pc == 0x204) = true := by decide
/-- K3. -/
theorem test_skp_index_of_16 : after (.skp 1) ((regs [(1, 0x15)]).setKey 0x20) (fun t => t.pc == 0x202) = true := by
  decide
/-- K5. -/
theorem test_sknp : after (.sknp 1) (regs [(1, 6)]) (fun t => t.pc == 0x204) = true := by decide
/-- K6 under low_nibble. -/
theorem test_sknp_low_nibble : after (.sknp 1) ((cautious.setReg 1 0x15).setKey 0x20) (fun t => t.pc == 0x202) = true := by
  decide
/-- K7. -/
theorem test_ldVxDT : after (.ldVxDT 3) (State.reset.setDT 0x3C) (fun t => t.reg 3 == 0x3C) = true := by decide
/-- K9. -/
theorem test_ldVxK : after (.ldVxK 0) (State.reset.setKey 0x1008) (fun t => t.reg 0 == 3 && t.pc == 0x202) = true := by
  decide
/-- K8. -/
theorem test_ldVxK_waits : after (.ldVxK 0) (regs [(0, 0x77)]) (fun t => t == regs [(0, 0x77)]) = true := by decide
/-- K12. -/
theorem test_ldDTVx : after (.ldDTVx 4) (regs [(4, 60)]) (fun t => t.dt == 60 && t.st == 0) = true := by decide
/-- K13. -/
theorem test_ldSTVx : after (.ldSTVx 4) (regs [(4, 2)])
    (fun t => t.st == 2 && t.stActive && !t.out.toneTrigger) = true := by decide

/-! ### Reset and the host -/

/-- The font of 20_memory.md R49, and the byte after it. -/
theorem test_font : (List.range 5).map (fun k => State.reset.memRead (50 + k)) = [0xF0, 0x90, 0xF0, 0x90, 0x90] ∧
    State.reset.memRead 79 = 0x80 ∧ State.reset.memRead 80 = 0 := by decide

/-- T5 and T3: independent timers; the pulse of a tick that finds ST at 1. -/
theorem test_tick : (hostTick ((State.reset.setDT 5).setST 1)).dt = 4 ∧ (hostTick ((State.reset.setDT 5).setST 1)).st = 0 ∧
    (hostTick ((State.reset.setDT 5).setST 1)).out.toneTrigger = true ∧ (hostTick State.reset).out.toneTrigger = false := by
  decide

/-- H2 and H3. -/
theorem test_load : (hostLoad 3583 0xAB State.reset).mem = [(0xFFF, 0xAB)] ∧
    (hostLoad 3584 0xAB State.reset).mem = [] ∧ (hostLoad 3584 0xAB State.reset).out.romTruncated = true := by decide

/-- H5. -/
theorem test_keys : ascending.filter (hostKeys 0x0220 State.reset).keyAt = [5, 9] := by decide

/-- H4. -/
theorem test_reset : hostReset (hostLoad 0 0x12 ((calls 3).setDT 9)) = State.reset := by decide

/-- R146: construction from a ROM. -/
theorem test_construct : (construct [0x12, 0x00] State.reset).mem = [(0x200, 0x12)] ∧
    (construct [0x12, 0x00] State.reset).fetchWord = 0x1200 := by decide

/-- R139: a dutiful host loads 6005 (V0 = 5) and F015 (DT = V0), steps twice and ticks once. -/
theorem test_dutiful_host :
    (match hostRun (dutifulOps [0x60, 0x05, 0xF0, 0x15] [{ keysD := 0x20, ops := [.step, .step, .tick] }]) (calls 2) with
      | .next t => t.dt == 4 && t.pc == 0x204 && t.sp == 0 && t.keyAt 5
      | _ => false) = true := by decide

/-! ### Witnesses: states and operands that meet the hypotheses of each statement -/

theorem witness_DecodeOfEncodeIsIdentity : (Instr.drw 15 15 15).wellFormed = true := rfl

theorem witness_EncodeOfDecodeIsIdentity : decodeWord 0xDFFF = .ok (.drw 15 15 15) := rfl

theorem witness_StepRunsTheDecodedInstruction :
    (Instr.jp 0xABC).wellFormed = true ∧
    decode [Memory.get (State.reset.withFetchWord 16 0x1ABC).mem (0x200 % 4096),
      Memory.get (State.reset.withFetchWord 16 0x1ABC).mem ((0x200 + 1) % 4096)] = .ok (.jp 0xABC, []) ∧
    decode [Memory.get ((at_ 0xFFFF State.reset).withFetchWord 16 0x1ABC).mem (0xFFFF % 4096),
      Memory.get ((at_ 0xFFFF State.reset).withFetchWord 16 0x1ABC).mem ((0xFFFF + 1) % 4096)] = .ok (.jp 0xABC, []) :=
  ⟨rfl, rfl, rfl⟩

theorem witness_UndecodedWordOnlyAdvances : decodeWord State.reset.fetchWord = .error .undecodedFamily0 := rfl

/-- The stop of the parameter value that is not the default. -/
theorem witness_StepStopsOnlyOnReturnUnderflow :
    (cautious.withFetchWord 16 0x00EE).params.popEmpty = .fault ∧ (cautious.withFetchWord 16 0x00EE).fetchWord = 0x00EE ∧
    step (cautious.withFetchWord 16 0x00EE) = .fault (.returnUnderflow 0x200) := ⟨rfl, rfl, rfl⟩

theorem witness_StepKeepsInvariant : StateInv State.reset ∧ ∃ t, step State.reset = .next t :=
  ⟨⟨rfl, rfl, by decide⟩, _, rfl⟩

/-- Pins that ask for nothing. -/
def noPins : Pins :=
  { rst := false, ldWe := false, ldOffset := 0, ldData := 0, keysWe := false, keysD := 0, tick := false, stepReq := false,
    randByte := 0, finish := false }

theorem witness_HostOperationsKeepInvariant : StateInv State.reset ∧ (∃ t, hostApply .tick State.reset = .next t) ∧
    ∃ t, cycle { noPins with ldWe := true } State.reset = .next t :=
  ⟨⟨rfl, rfl, by decide⟩, ⟨_, rfl⟩, ⟨_, rfl⟩⟩

/-- Each part has a step that changes it. -/
theorem witness_StepWritesEachPartOnlyByItsWriters :
    stepped (State.reset.withFetchWord 16 0xA123) (fun t => t.i != 0) = true ∧
    stepped ((State.reset.setIndex 0x300).setReg 0 1 |>.withFetchWord 16 0xF055) (fun t => t.memRead 0x300 != 0) = true ∧
    stepped (State.reset.withFetchWord 16 0xD001) (fun t => t.fb != State.reset.fb) = true ∧
    stepped (State.reset.withFetchWord 16 0x2300) (fun t => t.sp != 0 && t.stack != State.reset.stack) = true ∧
    stepped ((State.reset.setReg 0 9).withFetchWord 16 0xF015) (fun t => t.dt != 0) = true ∧
    stepped ((State.reset.setReg 0 9).withFetchWord 16 0xF018) (fun t => t.st != 0) = true ∧
    stepped (State.reset.withFetchWord 16 0x6F01) (fun t => t.reg 15 != 0) = true ∧
    stepped ((State.reset.setRandPort (some 1)).withFetchWord 16 0xC001) (fun t => t.fresh != 0) = true ∧
    stepped State.reset (fun t => t.out.diagUndecoded) = true ∧
    stepped ((calls 15).withFetchWord 16 0x2300) (fun t => t.out.diagCallDropped) = true ∧
    stepped (State.reset.withFetchWord 16 0x00EE) (fun t => t.out.diagReturnDropped) = true := by decide

theorem witness_NoInstructionReadsTheSoundTimer : (∃ u, step (State.reset.withFetchWord 16 0xF018) = .next u) ∧
    ∃ r, step (cautious.withFetchWord 16 0x00EE) = .fault r := ⟨⟨_, rfl⟩, ⟨_, rfl⟩⟩

theorem witness_OutputsNeverInfluenceTheState : (∃ u, step (State.reset.withFetchWord 16 0x2300) = .next u) ∧
    ∃ r, step (cautious.withFetchWord 16 0x00EE) = .fault r := ⟨⟨_, rfl⟩, ⟨_, rfl⟩⟩

theorem witness_SelfJumpChangesNothing : AtSelfJump (State.reset.withFetchWord 16 0x1200) := ⟨0x200, rfl, rfl⟩

/-- The least and the greatest SP of each clause. -/
theorem witness_CallPushesTheReturnAddress : (calls 0).sp.toNat < 15 ∧ (calls 14).sp.toNat = 14 ∧ (calls 15).sp.toNat = 15 :=
  by decide

theorem witness_ReturnPopsTheTarget : (calls 1).sp ≠ 0 ∧ (calls 15).sp ≠ 0 ∧
    (State.reset.sp = 0 ∧ State.reset.params.popEmpty = .drop) ∧ (cautious.sp = 0 ∧ cautious.params.popEmpty = .fault) := by
  decide

theorem witness_CallsAndReturnsNest :
    State.reset.sp.toNat + ((0x300 : Addr) :: List.replicate 14 0x300).length ≤ 15 ∧
    (calls 14).sp.toNat + [(0x300 : Addr)].length ≤ 15 := by decide

/-- A register that is VF and one that is not, for the clauses of the register statements. -/
theorem witness_vf_clauses : (0 : Reg) ≠ 15 ∧ (14 : Reg) ≠ 15 ∧ (15 : Reg) = vf := by decide

/-- The undecoded neighbours of SkipsComparingRegisters: the least and the greatest low digit. -/
theorem witness_SkipsComparingRegisters : (0 < 1 ∧ 1 < 16) ∧ (0 < 15 ∧ 15 < 16) := by decide

/-- Equal operands, which meet the flag's condition, and operands that do not. -/
theorem witness_SubtractWritesNoBorrow :
    (1 = if ((regs [(1, 5), (2, 5)]).reg 1).toNat ≥ ((regs [(1, 5), (2, 5)]).reg 2).toNat then 1 else 0) ∧
    (0 = if ((regs [(1, 4), (2, 5)]).reg 1).toNat ≥ ((regs [(1, 4), (2, 5)]).reg 2).toNat then 1 else 0) := by decide

theorem witness_ReverseSubtractWritesNoBorrow :
    (1 = if ((regs [(1, 5), (2, 5)]).reg 2).toNat ≥ ((regs [(1, 5), (2, 5)]).reg 1).toNat then 1 else 0) ∧
    (0 = if ((regs [(1, 6), (2, 5)]).reg 2).toNat ≥ ((regs [(1, 6), (2, 5)]).reg 1).toNat then 1 else 0) := by decide

/-- The premise on memory, of reset memory and of a memory with entries: BcdStoresThreeDigits,
StoreRegistersFillsMemory, StoreThenLoadRestoresRegisters, RomLoadWritesItsWindow, StoresChangeTheStoredBytes. -/
theorem witness_memory_wf : Memory.wf State.reset.mem = true ∧ Memory.wf (hostLoad 3583 0xAB State.reset).mem = true := by
  decide

/-- The least and the greatest register number of Fx55 and Fx65. -/
theorem witness_register_ranges : (0 : Reg) ≤ 0 ∧ (15 : Reg) ≤ 15 := by decide

/-- A store from pc + 2, whose first two bytes are the next word; one that ends on the word's first byte; and one across the
end of memory. -/
theorem witness_StoredInstructionIsFetchedNext :
    (Memory.wf (State.reset.setIndex 0x202).mem = true ∧ (1 : Reg) ≤ 1 ∧ 1 < 3 ∧
      ((State.reset.setIndex 0x202).i.toNat + 0) % 4096 = ((State.reset.setIndex 0x202).pc.toNat + 2) % 4096 ∧
      ((State.reset.setIndex 0x202).i.toNat + 1) % 4096 = ((State.reset.setIndex 0x202).pc.toNat + 3) % 4096) ∧
    ((State.reset.setIndex 0x200).i.toNat + 2) % 4096 = ((State.reset.setIndex 0x200).pc.toNat + 2) % 4096 ∧
    (((at_ 0xFFE State.reset).setIndex 0xFF1).i.toNat + 15) % 4096 = ((at_ 0xFFE State.reset).pc.toNat + 2) % 4096 := by
  decide

/-- The least and the greatest row count; x and y that are not VF. -/
theorem witness_draws : (0 < 16 ∧ 15 < 16) ∧ (0 : Reg) ≠ 15 ∧ (14 : Reg) ≠ 15 := by decide

/-- Both outcomes of a draw: a set cell under a 1-bit of the sprite, and none. -/
theorem witness_DrawFlagsACollision :
    spriteBit (sprite [0x80] []) 0 1 1 0 0 = true ∧ (sprite [0x80] []).cell 0 0 = false ∧
    ({ sprite [0x80] [] with fb := (Vector.replicate 32 0).set 0 1 } : State).cell 0 0 = true ∧
    spriteBit (sprite [0xC0] [(0, 0x3F), (1, 0x1F)]) 0 1 1 31 63 = true := by decide

/-- The three clauses, at the ends of their ranges. -/
theorem witness_SkipsOnAKey :
    (((regs [(1, 15)]).reg 1).toNat = (15 : Fin 16).val ∧ false = (regs [(1, 15)]).keyAt 15) ∧
    (16 ≤ ((regs [(1, 16)]).reg 1).toNat ∧ (regs [(1, 16)]).params.keyIndexOor = .up) ∧
    (16 ≤ ((regs [(1, 255)]).reg 1).toNat ∧ (regs [(1, 255)]).params.keyIndexOor = .up) ∧
    (16 ≤ ((cautious.setReg 1 16).reg 1).toNat ∧ (cautious.setReg 1 16).params.keyIndexOor = .lowNibble ∧
      ((cautious.setReg 1 16).reg 1).toNat % 16 = (0 : Fin 16).val ∧ false = (cautious.setReg 1 16).keyAt 0) := by
  decide

/-- Key 0 and key 15 as the lowest key down, and no key down. -/
theorem witness_KeyWaitTakesTheLowestKey :
    ((State.reset.setKey 0xFFFF).keyAt 0 = true ∧ ∀ j, j < (0 : Fin 16) → (State.reset.setKey 0xFFFF).keyAt j = false) ∧
    ((State.reset.setKey 0x8000).keyAt 15 = true ∧ ∀ j, j < (15 : Fin 16) → (State.reset.setKey 0x8000).keyAt j = false) ∧
    ∀ k, State.reset.keyAt k = false := by decide

theorem witness_RegisterInstructionsChangeVxAndPc :
    ([.ldImm 0 1, .addImm 0 1, .ldReg 0 1, .orReg 0 1, .andReg 0 1, .xorReg 0 1, .ldVxDT 0, .ldVxK 0] : List Instr).all
      (fun i => runs i State.reset) = true := by decide

theorem witness_FlagArithmeticChangesVxVfAndPc :
    ([.addReg 0 1, .subReg 0 1, .shr 0 1, .subn 0 1, .shl 0 1] : List Instr).all (fun i => runs i State.reset) = true := by
  decide

theorem witness_JumpsAndSkipsChangePc :
    ([.jp 0, .jpV0 0, .seImm 0 0, .sneImm 0 0, .seReg 0 1, .sneReg 0 1, .skp 0, .sknp 0] : List Instr).all
      (fun i => runs i State.reset) = true := by decide

theorem witness_CallAndReturnChangeTheStack :
    (runs (.call 0) (calls 14) = true ∧ (calls 14).sp ≠ 15) ∧ (runs (.call 0) (calls 15) = true ∧ (calls 15).sp = 15) ∧
    (runs .ret (calls 1) = true ∧ (calls 1).sp ≠ 0) ∧ (runs .ret (calls 0) = true ∧ (calls 0).sp = 0) := by decide

theorem witness_SpecialRegisterInstructionsFrame :
    ([.ldI 0, .addI 0, .ldF 0, .ldDTVx 0, .ldSTVx 0] : List Instr).all (fun i => runs i State.reset) = true := by
  decide

theorem witness_StoresChangeTheStoredBytes :
    Memory.wf State.reset.mem = true ∧ runs (.ldB 0) State.reset = true ∧ runs (.storeRegs 15) State.reset = true := by
  decide

theorem witness_DisplayInstructionsFrame : runs .cls State.reset = true ∧ runs (.drw 0 1 15) State.reset = true := by
  decide

/-- The last address of FONT, the first after it and the last of memory. -/
theorem witness_ResetEstablishesEveryValue : 79 < 80 ∧ (80 ≤ 80 ∧ 80 < 4096) ∧ (80 ≤ 4095 ∧ 4095 < 4096) := by decide

/-- The offsets at both sides of the end of the window. -/
theorem witness_RomLoadWritesItsWindow : (3583 : Word).toNat < 3584 ∧ 3584 ≤ (3584 : Word).toNat ∧ 3584 ≤ (0xFFFF : Word).toNat :=
  by decide

theorem witness_ConstructionHoldsTheRom : 3583 < (List.replicate 3585 (0 : Byte)).length ∧ 3583 < 3584 := by
  rw [List.length_replicate]; decide

theorem witness_FrameReadShowsTheCells : State.reset.out.busy = false := rfl

/-- Each case of a clock cycle, and steps in progress that complete and that stop. -/
theorem witness_OneHostRequestPerCycle :
    ({ noPins with rst := true }).rst = true ∧
    (noPins.rst = false ∧ State.reset.acceptStep.out.busy = true ∧ noPins.finish = false) ∧
    (({ noPins with finish := true }).finish = true ∧ ∃ u, step (State.reset.acceptStep.setRandPort (some 0)) = .next u) ∧
    (∃ r, step ((cautious.withFetchWord 16 0x00EE).acceptStep.setRandPort (some 0)) = .fault r) ∧
    (State.reset.out.busy = false ∧ ({ noPins with ldWe := true }).ldWe = true ∧ ({ noPins with keysWe := true }).ldWe = false ∧
      ({ noPins with keysWe := true }).keysWe = true ∧ ({ noPins with tick := true }).keysWe = false ∧
      ({ noPins with tick := true }).tick = true ∧ noPins.tick = false) :=
  ⟨rfl, ⟨rfl, rfl, rfl⟩, ⟨rfl, _, rfl⟩, ⟨_, rfl⟩, rfl, rfl, rfl, rfl, rfl, rfl, rfl⟩

end Sys2Proof.Tests
end

section
/-! PROOFS. Frames (00_scope.md R12): how frames compose, the frame of each operation over the state, and from these the
frame of each instruction. -/
namespace Sys2Proof.Machine

/-! ### How frames compose -/

theorem ChangesOnly.refl (P : Set StatePart) (s : State) : ChangesOnly P s s := by
  intro p _
  cases p with
  | randInput => exact ⟨rfl, rfl⟩
  | _ => rfl

theorem ChangesOnly.mono {P Q : Set StatePart} {s t : State} (h : ChangesOnly P s t) (hPQ : P ⊆ Q) : ChangesOnly Q s t :=
  fun p hp => h p fun hpP => hp (hPQ hpP)

theorem StatePart.same_trans {p : StatePart} {s t u : State} (hst : p.same s t) (htu : p.same t u) : p.same s u := by
  cases p with
  | randInput => exact ⟨htu.1.trans hst.1, htu.2.trans hst.2⟩
  | _ => exact Eq.trans htu hst

/-- One change after another touches what either of them touches. -/
theorem ChangesOnly.trans {P Q : Set StatePart} {s t u : State} (hst : ChangesOnly P s t) (htu : ChangesOnly Q t u) :
    ChangesOnly (P ∪ Q) s u :=
  fun p hp => StatePart.same_trans (hst p fun h => hp (.inl h)) (htu p fun h => hp (.inr h))

/-- The frame of an instruction that always goes on is the frame of the state it goes on with. -/
theorem ChangesOnly.of_next {P : Set StatePart} {s t u : State} (hu : ChangesOnly P s u)
    (h : (.next u : Host.Outcome State Fault Refusal) = .next t) : ChangesOnly P s t := by
  cases h
  exact hu

/-! ### The frame of each operation -/

namespace State

variable (s : State)

theorem jumpTo_frame (w : Word) : ChangesOnly {.pc} s (s.jumpTo w) := by
  intro p hp
  cases p with
  | pc => exact absurd (Set.mem_singleton _) hp
  | randInput => exact ⟨rfl, rfl⟩
  | _ => rfl

theorem setReg_frame (x : Reg) (b : Byte) : ChangesOnly {.reg x} s (s.setReg x b) := by
  intro p hp
  cases p with
  | reg y => exact reg_setReg_ne s b fun hyx => hp (congrArg StatePart.reg hyx)
  | randInput => exact ⟨rfl, rfl⟩
  | _ => rfl

theorem setIndex_frame (w : Word) : ChangesOnly {.index} s (s.setIndex w) := by
  intro p hp
  cases p with
  | index => exact absurd (Set.mem_singleton _) hp
  | randInput => exact ⟨rfl, rfl⟩
  | _ => rfl

theorem setDT_frame (b : Byte) : ChangesOnly {.delayTimer} s (s.setDT b) := by
  intro p hp
  cases p with
  | delayTimer => exact absurd (Set.mem_singleton _) hp
  | randInput => exact ⟨rfl, rfl⟩
  | _ => rfl

theorem setST_frame (b : Byte) : ChangesOnly {.soundTimer} s (s.setST b) := by
  intro p hp
  cases p with
  | soundTimer => exact absurd (Set.mem_singleton _) hp
  | randInput => exact ⟨rfl, rfl⟩
  | _ => rfl

theorem setOut_frame (o : Outputs) : ChangesOnly {.outputs} s (s.setOut o) := by
  intro p hp
  cases p with
  | outputs => exact absurd (Set.mem_singleton _) hp
  | randInput => exact ⟨rfl, rfl⟩
  | _ => rfl

/-- A new frame buffer changes the cells in which it differs. -/
theorem setFrame_frame (f : Frame) :
    ChangesOnly {p | ∃ y x, p = .cell y x ∧ Frame.pixel f y x ≠ s.cell y x} s (s.setFrame f) := by
  intro p hp
  cases p with
  | cell y x => exact not_not.1 fun hne => hp ⟨y, x, rfl, hne⟩
  | randInput => exact ⟨rfl, rfl⟩
  | _ => rfl

/-- A push changes SP and the new top (10_state.md R25). -/
theorem push_frame (w : Word) (h : s.sp ≠ 15) :
    ChangesOnly {p | p = .stackPointer ∨ ∃ k : Fin 16, p = .stackEntry k ∧ k.val = s.sp.toNat + 1} s (s.push w) := by
  intro p hp
  cases p with
  | stackPointer => exact absurd (.inl rfl) hp
  | stackEntry k => exact (stackAt_push w h k).trans (if_neg fun hk => hp (.inr ⟨k, rfl, hk⟩))
  | randInput => rw [push_of_not_full w h]; exact ⟨rfl, rfl⟩
  | _ => rw [push_of_not_full w h]; rfl

/-- A pop changes SP alone: the popped entry is not cleared (R26). -/
theorem pop_frame (h : s.sp ≠ 0) : ChangesOnly {.stackPointer} s s.pop := by
  rw [pop_of_not_empty h]
  intro p hp
  cases p with
  | stackPointer => exact absurd (Set.mem_singleton _) hp
  | randInput => exact ⟨rfl, rfl⟩
  | _ => rfl

/-- A list of bytes written from I on changes the bytes of its length (20_memory.md R46, 42_index_memory.md R98). -/
theorem memWriteList_frame (hs : Memory.wf s.mem = true) {bs : List Byte} (hl : bs.length ≤ Config.memSize) :
    ChangesOnly (storedBytes s bs.length) s (s.memWriteList (s.effAddr 0) bs) := by
  intro p hp
  cases p with
  | memByte a => exact memRead_memWriteList_outside hs hl fun k hk ha => hp ⟨a, k, rfl, hk, ha⟩
  | randInput => exact ⟨rfl, rfl⟩
  | _ => rfl

theorem skipIf_frame (c : Bool) : ChangesOnly {.pc} s (s.skipIf c) := by
  rw [skipIf_eq]
  exact s.jumpTo_frame _

theorem finishReg_frame (x : Reg) (b : Byte) : ChangesOnly {.reg x, .pc} s (s.finishReg x b) :=
  (s.setReg_frame x b).trans (jumpTo_frame _ _)

/-- The shape of the arithmetic that writes a flag: VF first, then V[x] (41_register_alu.md R84). -/
theorem setFlag_finishReg_frame (f : Bool) (x : Reg) (b : Byte) :
    ChangesOnly {.reg x, .reg 15, .pc} s ((s.setFlag f).finishReg x b) := by
  refine ((s.setReg_frame vf (flagByte f)).trans (finishReg_frame _ x b)).mono ?_
  rintro p (hvf | hx | hpc)
  · exact .inr (.inl hvf)
  · exact .inl hx
  · exact .inr (.inr hpc)

end State

/-! ### Instructions with more than one outcome -/

/-- Fx0A writes V[x] when a key is down and changes nothing when none is (44_keys_timers.md R117). -/
theorem execLdVxK_frame {x : Reg} {s t : State} (h : execLdVxK x s = .next t) : ChangesOnly {.reg x, .pc} s t := by
  unfold execLdVxK at h
  split at h
  · exact (s.finishReg_frame x _).of_next h
  · exact (ChangesOnly.refl _ s).of_next h

theorem execCall_of_not_full (nnn : Addr) {s : State} (hs : s.sp ≠ 15) :
    execCall nnn s = .next ((s.push s.returnAddress).jumpTo (zext16 nnn)) := by
  have hfull : s.stackFull = false := beq_false_of_ne hs
  simp [execCall, hfull]

theorem execCall_of_full (nnn : Addr) {s : State} (hs : s.sp = 15) :
    execCall nnn s = .next s.raiseCallDropped.advance := by
  simp [execCall, State.stackFull, hs]

theorem execRet_of_not_empty {s : State} (hs : s.sp ≠ 0) : execRet s = .next (s.pop.jumpTo s.stackTop) := by
  have hempty : s.stackEmpty = false := beq_false_of_ne hs
  simp [execRet, hempty]

/-- A return on an empty stack that goes on is the dropped one; under the other policy it stops (R26, R75). -/
theorem eq_of_execRet_of_empty {s t : State} (hs : s.sp = 0) (h : execRet s = .next t) :
    t = s.raiseReturnDropped.advance := by
  have hempty : s.stackEmpty = true := beq_iff_eq.2 hs
  cases hp : s.params.popEmpty with
  | drop =>
    simp only [execRet, hempty, hp, if_true] at h
    cases h
    rfl
  | fault => simp [execRet, hempty, hp] at h

/-- The shape of a dropped call or return: an output is raised and pc advances. -/
theorem State.setOut_advance_frame (s : State) (o : Outputs) : ChangesOnly {.pc, .outputs} s (s.setOut o).advance := by
  have h := (s.setOut_frame o).trans ((s.setOut o).jumpTo_frame (s.pc + 2))
  exact h.mono (Set.union_comm _ _).subset

theorem execCall_frame {nnn : Addr} {s t : State} (h : execCall nnn s = .next t) (hs : s.sp ≠ 15) :
    ChangesOnly {p | p = .pc ∨ p = .stackPointer ∨ ∃ k : Fin 16, p = .stackEntry k ∧ k.val = s.sp.toNat + 1} s t := by
  rw [execCall_of_not_full nnn hs] at h
  refine ChangesOnly.of_next (((s.push_frame _ hs).trans (State.jumpTo_frame _ _)).mono ?_) h
  rintro p (hstack | hpc)
  · exact .inr hstack
  · exact .inl hpc

theorem execCall_dropped_frame {nnn : Addr} {s t : State} (h : execCall nnn s = .next t) (hs : s.sp = 15) :
    ChangesOnly {.pc, .outputs} s t ∧ t.out = { s.out with diagCallDropped := true } := by
  rw [execCall_of_full nnn hs] at h
  cases h
  exact ⟨s.setOut_advance_frame _, rfl⟩

theorem execRet_frame {s t : State} (h : execRet s = .next t) (hs : s.sp ≠ 0) : ChangesOnly {.pc, .stackPointer} s t := by
  rw [execRet_of_not_empty hs] at h
  exact (((s.pop_frame hs).trans (State.jumpTo_frame _ _)).mono (Set.union_comm _ _).subset).of_next h

theorem execRet_dropped_frame {s t : State} (h : execRet s = .next t) (hs : s.sp = 0) :
    ChangesOnly {.pc, .outputs} s t ∧ t.out = { s.out with diagReturnDropped := true } := by
  cases eq_of_execRet_of_empty hs h
  exact ⟨s.setOut_advance_frame _, rfl⟩

/-! ### Stores and draws -/

theorem execLdB_frame {x : Reg} {s t : State} (hs : Memory.wf s.mem = true) (h : execLdB x s = .next t) :
    ChangesOnly ({.pc} ∪ storedBytes s 3) s t := by
  have hstore : ChangesOnly (storedBytes s 3) s (s.memWriteList (s.effAddr 0) (bcdDigits (s.reg x))) :=
    s.memWriteList_frame hs (bs := bcdDigits (s.reg x)) (show 3 ≤ 4096 by decide)
  exact ((hstore.trans (State.jumpTo_frame _ _)).mono (Set.union_comm _ _).subset).of_next h

theorem execStoreRegs_frame {x : Reg} {s t : State} (hs : Memory.wf s.mem = true) (h : execStoreRegs x s = .next t) :
    ChangesOnly ({.pc} ∪ storedBytes s (x.val + 1)) s t := by
  have hlen : ((regsUpTo x).map fun r => s.reg r).length = x.val + 1 := by rw [List.length_map, length_regsUpTo]
  have hle : x.val + 1 ≤ Config.memSize := by have := x.isLt; rw [Config.memSize]; omega
  have hstore := s.memWriteList_frame hs (hlen.trans_le hle)
  rw [hlen] at hstore
  exact ((hstore.trans (State.jumpTo_frame _ _)).mono (Set.union_comm _ _).subset).of_next h

theorem execCls_frame {s t : State} (h : execCls s = .next t) :
    ChangesOnly {p | p = .pc ∨ ∃ y x, p = .cell y x} s t := by
  refine ChangesOnly.of_next (((s.setFrame_frame _).trans (State.jumpTo_frame _ _)).mono ?_) h
  rintro p (⟨y, x, rfl, -⟩ | hpc)
  · exact .inr ⟨y, x, rfl⟩
  · exact .inl hpc

/-- A cell that a draw changes lies under a 1-bit of the sprite (43_display.md R107). -/
theorem spriteBit_of_pixel_drawSprite_ne {s : State} {x y : Reg} {n : Nat} {yy : Fin 32} {xx : Fin 64}
    (h : Frame.pixel (drawSprite s.mem s.i.toNat (s.startColumn x) (s.startRow y) n s.fb).1 yy xx ≠ s.cell yy xx) :
    spriteBit s x y n yy xx = true := by
  rw [drawSprite, (drawRows_spec _ _ _ _ _ _ _).1, rowsBit_eq_spriteBit] at h
  by_contra hb
  rw [Bool.not_eq_true] at hb
  exact h (by rw [hb, Bool.xor_false, State.cell])

theorem execDrw_frame {x y : Reg} {n : Nat} {s t : State} (h : execDrw x y n s = .next t) :
    ChangesOnly {p | p = .pc ∨ p = .reg 15 ∨ ∃ yy xx, p = .cell yy xx ∧ spriteBit s x y n yy xx = true} s t := by
  refine ChangesOnly.of_next
    ((((s.setFrame_frame _).trans (State.setReg_frame _ vf _)).trans (State.jumpTo_frame _ _)).mono ?_) h
  rintro p ((⟨yy, xx, rfl, hne⟩ | hvf) | hpc)
  · exact .inr (.inr ⟨yy, xx, rfl, spriteBit_of_pixel_drawSprite_ne hne⟩)
  · exact .inr (.inl hvf)
  · exact .inl hpc

/-! ### The obligations -/

/-- Settles O46: each of the instructions is one register write and an advance; Fx0A may also wait. -/
theorem registerInstructionsChangeVxAndPc : Obligations.RegisterInstructionsChangeVxAndPc :=
  ⟨fun x _ s _ h => (s.finishReg_frame x _).of_next h,
   fun x _ s _ h => (s.finishReg_frame x _).of_next h,
   fun x _ s _ h => (s.finishReg_frame x _).of_next h,
   fun x _ s _ h => (s.finishReg_frame x _).of_next h,
   fun x _ s _ h => (s.finishReg_frame x _).of_next h,
   fun x _ s _ h => (s.finishReg_frame x _).of_next h,
   fun x s _ h => (s.finishReg_frame x _).of_next h,
   fun _ _ _ h => execLdVxK_frame h⟩

/-- Settles O47: each of the instructions writes the flag, then V[x], then advances. -/
theorem flagArithmeticChangesVxVfAndPc : Obligations.FlagArithmeticChangesVxVfAndPc :=
  ⟨fun x _ s _ h => (s.setFlag_finishReg_frame _ x _).of_next h,
   fun x _ s _ h => (s.setFlag_finishReg_frame _ x _).of_next h,
   fun x _ s _ h => (s.setFlag_finishReg_frame _ x _).of_next h,
   fun x _ s _ h => (s.setFlag_finishReg_frame _ x _).of_next h,
   fun x _ s _ h => (s.setFlag_finishReg_frame _ x _).of_next h⟩

/-- Settles O48: two of the instructions are a jump, the others a skip on a condition. -/
theorem jumpsAndSkipsChangePc : Obligations.JumpsAndSkipsChangePc :=
  ⟨fun _ s _ h => (s.jumpTo_frame _).of_next h,
   fun _ s _ h => (s.jumpTo_frame _).of_next h,
   fun _ _ s _ h => (s.skipIf_frame _).of_next h,
   fun _ _ s _ h => (s.skipIf_frame _).of_next h,
   fun _ _ s _ h => (s.skipIf_frame _).of_next h,
   fun _ _ s _ h => (s.skipIf_frame _).of_next h,
   fun _ s _ h => (s.skipIf_frame _).of_next h,
   fun _ s _ h => (s.skipIf_frame _).of_next h⟩

/-- Settles O49, by SP: a call pushes or is dropped, a return pops or is dropped. -/
theorem callAndReturnChangeTheStack : Obligations.CallAndReturnChangeTheStack :=
  ⟨fun _ _ _ h hs => execCall_frame h hs, fun _ _ _ h hs => execCall_dropped_frame h hs,
   fun _ _ h hs => execRet_frame h hs, fun _ _ h hs => execRet_dropped_frame h hs⟩

/-- Settles O50: each of the instructions is one write and an advance. -/
theorem specialRegisterInstructionsFrame : Obligations.SpecialRegisterInstructionsFrame :=
  ⟨fun _ s _ h => ((s.setIndex_frame _).trans (State.jumpTo_frame _ _)).of_next h,
   fun _ s _ h => ((s.setIndex_frame _).trans (State.jumpTo_frame _ _)).of_next h,
   fun _ s _ h => ((s.setIndex_frame _).trans (State.jumpTo_frame _ _)).of_next h,
   fun _ s _ h => ((s.setDT_frame _).trans (State.jumpTo_frame _ _)).of_next h,
   fun _ s _ h => ((s.setST_frame _).trans (State.jumpTo_frame _ _)).of_next h⟩

/-- Settles O51: a store writes a list of three or of x + 1 bytes from I on. -/
theorem storesChangeTheStoredBytes : Obligations.StoresChangeTheStoredBytes :=
  ⟨fun _ _ _ hs h => execLdB_frame hs h, fun _ _ _ hs h => execStoreRegs_frame hs h⟩

/-- Settles O52: a clear and a draw set the frame buffer, and a cell the draw changes lies under a 1-bit. -/
theorem displayInstructionsFrame : Obligations.DisplayInstructionsFrame :=
  ⟨fun _ _ h => execCls_frame h, fun _ _ _ _ _ h => execDrw_frame h⟩

end Sys2Proof.Machine
end

section
/-! PROOFS. What one step does to the state (10_state.md): the two ways a step goes on, the parts that an instruction may
write, and from these the invariant and the writers of each part. -/
namespace Sys2Proof.Machine

/-! ### The two ways a step goes on -/

/-- A step that goes on ran the decoded instruction, or the no-op of an undecoded word (30_encoding.md R66, R69). -/
theorem step_cases {s t : State} (h : step s = .next t) :
    (∃ i, decodeWord s.fetchWord = .ok i ∧ exec i s.clearPulses = .next t) ∨
    (∃ e, decodeWord s.fetchWord = .error e ∧ t = s.clearPulses.runUndecoded) := by
  unfold step at h
  cases hd : decodeWord s.fetchWord with
  | ok i =>
    rw [hd] at h
    exact .inl ⟨i, rfl, h⟩
  | error e =>
    rw [hd] at h
    cases h
    exact .inr ⟨e, rfl, rfl⟩

/-- An undecoded word raises its diagnostic, the other pulses being low, and advances pc (30_encoding.md R69). -/
theorem clearPulses_runUndecoded (s : State) :
    s.clearPulses.runUndecoded = (s.setOut { s.out.quiet with diagUndecoded := true }).jumpTo (s.pc + 2) := rfl

/-! ### What an instruction may write -/

/-- The instruction is a call that finds the stack full (40_control_flow.md R77). -/
def State.dropsCall (s : State) : Instr → Bool
  | .call _ => s.stackFull
  | _ => false

/-- The instruction is a return that finds the stack empty (R75). -/
def State.dropsReturn (s : State) : Instr → Bool
  | .ret => s.stackEmpty
  | _ => false

/-- The outputs once an instruction has run: it raises the diagnostic of what it dropped and lowers nothing. -/
def State.outAfter (s : State) (i : Instr) : Outputs :=
  { s.out with
    diagCallDropped := s.dropsCall i || s.out.diagCallDropped
    diagReturnDropped := s.dropsReturn i || s.out.diagReturnDropped }

theorem State.dropsCall_iff {s : State} {i : Instr} : s.dropsCall i = true ↔ (∃ nnn, i = .call nnn) ∧ s.sp = 15 := by
  cases i with
  | call nnn => simp [dropsCall, stackFull]
  | _ => simp [dropsCall]

theorem State.dropsReturn_iff {s : State} {i : Instr} : s.dropsReturn i = true ↔ i = .ret ∧ s.sp = 0 := by
  cases i with
  | ret => simp [dropsReturn, stackEmpty]
  | _ => simp [dropsReturn]

/-- From s to t no part but pc has changed of which the instruction is not a writer: the V registers (10_state.md R18,
R19), I (R20), the stack and SP (R28), DT (R29), ST (R30), the keys (R31), the draw (R36), memory (20_memory.md R56), the
frame buffer (43_display.md R105), and the outputs (R124). -/
structure WritesOnly (i : Instr) (s t : State) : Prop where
  key : t.key = s.key
  params : t.params = s.params
  out : t.out = s.outAfter i
  rand : t.randPort ≠ s.randPort ∨ t.fresh ≠ s.fresh → ∃ x nn, i = .rnd x nn
  reg : ∀ r, t.reg r ≠ s.reg r → writesReg r i = true
  index : t.i ≠ s.i → (∃ nnn, i = .ldI nnn) ∨ (∃ x, i = .addI x) ∨ ∃ x, i = .ldF x
  mem : t.mem ≠ s.mem → (∃ x, i = .ldB x) ∨ ∃ x, i = .storeRegs x
  frame : t.fb ≠ s.fb → i = .cls ∨ ∃ x y n, i = .drw x y n
  stackPointer : t.sp ≠ s.sp → i = .ret ∨ ∃ nnn, i = .call nnn
  stack : t.stack ≠ s.stack → ∃ nnn, i = .call nnn
  delayTimer : t.dt ≠ s.dt → ∃ x, i = .ldDTVx x
  soundTimer : t.st ≠ s.st → ∃ x, i = .ldSTVx x

namespace WritesOnly

variable {i : Instr} {s t u : State}

/-- Every instruction may put the outputs where it has to leave them. -/
theorem setOut {o : Outputs} (ho : o = s.outAfter i) : WritesOnly i s (s.setOut o) where
  key := rfl
  params := rfl
  out := ho
  rand h := by simp at h
  reg _ h := absurd rfl h
  index h := absurd rfl h
  mem h := absurd rfl h
  frame h := absurd rfl h
  stackPointer h := absurd rfl h
  stack h := absurd rfl h
  delayTimer h := absurd rfl h
  soundTimer h := absurd rfl h

/-- An instruction that drops nothing may leave the state as it is. -/
theorem refl (hout : s.out = s.outAfter i) : WritesOnly i s s := setOut hout

theorem of_next (hu : WritesOnly i s u) (h : (.next u : Host.Outcome State Fault Refusal) = .next t) :
    WritesOnly i s t := by
  cases h
  exact hu

/-! Each basic update keeps within what the instruction may write when the instruction is a writer of its part. -/

theorem jumpTo (h : WritesOnly i s t) (w : Word) : WritesOnly i s (t.jumpTo w) := { h with }

theorem setReg (h : WritesOnly i s t) {x : Reg} (hx : writesReg x i = true) (b : Byte) : WritesOnly i s (t.setReg x b) :=
  { h with
    reg r hr := by
      by_cases hrx : r = x
      · exact hrx ▸ hx
      · exact h.reg r (by rwa [State.reg_setReg_ne t b hrx] at hr) }

theorem setRegs (h : WritesOnly i s t) {rs : List Reg} (hrs : ∀ r ∈ rs, writesReg r i = true) (f : Reg → Byte) :
    WritesOnly i s (t.setRegs rs f) :=
  { h with
    reg r hr := by
      by_cases hmem : r ∈ rs
      · exact hrs r hmem
      · exact h.reg r (by rwa [State.reg_setRegs, if_neg hmem] at hr) }

theorem setIndex (h : WritesOnly i s t) (hi : (∃ nnn, i = .ldI nnn) ∨ (∃ x, i = .addI x) ∨ ∃ x, i = .ldF x) (w : Word) :
    WritesOnly i s (t.setIndex w) :=
  { h with index _ := hi }

theorem memWriteList (h : WritesOnly i s t) (hi : (∃ x, i = .ldB x) ∨ ∃ x, i = .storeRegs x) (a : Nat) (bs : List Byte) :
    WritesOnly i s (t.memWriteList a bs) :=
  { h with mem _ := hi }

theorem setFrame (h : WritesOnly i s t) (hi : i = .cls ∨ ∃ x y n, i = .drw x y n) (f : Frame) :
    WritesOnly i s (t.setFrame f) :=
  { h with frame _ := hi }

theorem nextDraw (h : WritesOnly i s t) (hi : ∃ x nn, i = .rnd x nn) : WritesOnly i s t.nextDraw :=
  { h with rand _ := hi }

theorem setDT (h : WritesOnly i s t) (hi : ∃ x, i = .ldDTVx x) (b : Byte) : WritesOnly i s (t.setDT b) :=
  { h with delayTimer _ := hi }

theorem setST (h : WritesOnly i s t) (hi : ∃ x, i = .ldSTVx x) (b : Byte) : WritesOnly i s (t.setST b) :=
  { h with soundTimer _ := hi }

theorem push (h : WritesOnly i s t) (hi : ∃ nnn, i = .call nnn) (w : Word) : WritesOnly i s (t.push w) := by
  by_cases hfull : t.sp = 15
  · rwa [State.push_of_full w hfull]
  · rw [State.push_of_not_full w hfull]
    exact { h with stackPointer _ := .inr hi, stack _ := hi }

theorem pop (h : WritesOnly i s t) (hi : i = .ret) : WritesOnly i s t.pop := by
  by_cases hempty : t.sp = 0
  · rwa [State.pop_of_empty hempty]
  · rw [State.pop_of_not_empty hempty]
    exact { h with stackPointer _ := .inl hi }

theorem skipIf (h : WritesOnly i s t) (c : Bool) : WritesOnly i s (t.skipIf c) := by
  rw [State.skipIf_eq]
  exact h.jumpTo _

/-- The shape of the instructions whose one register is V[x]. -/
theorem finishReg (h : WritesOnly i s t) {x : Reg} (hi : ∀ r, writesReg r i = decide (r = x)) (b : Byte) :
    WritesOnly i s (t.finishReg x b) :=
  (h.setReg ((hi x).trans (decide_eq_true rfl)) b).jumpTo _

/-- The shape of the arithmetic that writes a flag: VF first, then V[x] (41_register_alu.md R84). -/
theorem setFlag_finishReg (h : WritesOnly i s t) {x : Reg} (hi : ∀ r, writesReg r i = decide (r = x ∨ r = vf)) (f : Bool)
    (b : Byte) : WritesOnly i s ((t.setFlag f).finishReg x b) :=
  ((h.setReg ((hi vf).trans (decide_eq_true (.inr rfl))) _).setReg ((hi x).trans (decide_eq_true (.inl rfl))) b).jumpTo _

end WritesOnly

/-! ### Every instruction keeps to what it may write -/

/-- A call pushes and jumps, or is dropped and raises its diagnostic (40_control_flow.md R77). -/
theorem execCall_writesOnly {nnn : Addr} {s t : State} (h : execCall nnn s = .next t) : WritesOnly (.call nnn) s t := by
  by_cases hs : s.sp = 15
  · rw [execCall_of_full nnn hs] at h
    have hfull : s.stackFull = true := beq_iff_eq.2 hs
    have hout : { s.out with diagCallDropped := true } = s.outAfter (.call nnn) := by
      simp [State.outAfter, State.dropsCall, State.dropsReturn, hfull]
    exact ((WritesOnly.setOut hout).jumpTo _).of_next h
  · rw [execCall_of_not_full nnn hs] at h
    have hroom : s.stackFull = false := beq_false_of_ne hs
    have hout : s.out = s.outAfter (.call nnn) := by
      simp [State.outAfter, State.dropsCall, State.dropsReturn, hroom]
    exact (((WritesOnly.refl hout).push ⟨nnn, rfl⟩ _).jumpTo _).of_next h

/-- A return pops and jumps, or is dropped and raises its diagnostic (R75). -/
theorem execRet_writesOnly {s t : State} (h : execRet s = .next t) : WritesOnly .ret s t := by
  by_cases hs : s.sp = 0
  · cases eq_of_execRet_of_empty hs h
    have hempty : s.stackEmpty = true := beq_iff_eq.2 hs
    have hout : { s.out with diagReturnDropped := true } = s.outAfter .ret := by
      simp [State.outAfter, State.dropsCall, State.dropsReturn, hempty]
    exact (WritesOnly.setOut hout).jumpTo _
  · rw [execRet_of_not_empty hs] at h
    have hentry : s.stackEmpty = false := beq_false_of_ne hs
    have hout : s.out = s.outAfter .ret := by
      simp [State.outAfter, State.dropsCall, State.dropsReturn, hentry]
    exact (((WritesOnly.refl hout).pop rfl).jumpTo _).of_next h

/-- Fx0A writes V[x] when a key is down and nothing when none is (44_keys_timers.md R117). -/
theorem execLdVxK_writesOnly {x : Reg} {s t : State} (h : execLdVxK x s = .next t) : WritesOnly (.ldVxK x) s t := by
  unfold execLdVxK at h
  split at h
  · exact ((WritesOnly.refl rfl).finishReg (fun _ => rfl) _).of_next h
  · exact (WritesOnly.refl rfl).of_next h

/-- Every instruction writes only the parts of which it is a writer: its meaning is a sequence of writes to these, and of
pc. -/
theorem exec_writesOnly {i : Instr} {s t : State} (h : exec i s = .next t) : WritesOnly i s t := by
  cases i with
  | ret => exact execRet_writesOnly h
  | call nnn => exact execCall_writesOnly h
  | ldVxK x => exact execLdVxK_writesOnly h
  | jp _ | jpV0 _ => exact ((WritesOnly.refl rfl).jumpTo _).of_next h
  | seImm _ _ | sneImm _ _ | seReg _ _ | sneReg _ _ | skp _ | sknp _ => exact ((WritesOnly.refl rfl).skipIf _).of_next h
  | ldImm _ _ | addImm _ _ | ldReg _ _ | orReg _ _ | andReg _ _ | xorReg _ _ | ldVxDT _ =>
    exact ((WritesOnly.refl rfl).finishReg (fun _ => rfl) _).of_next h
  | addReg _ _ | subReg _ _ | shr _ _ | subn _ _ | shl _ _ =>
    exact ((WritesOnly.refl rfl).setFlag_finishReg (fun _ => rfl) _ _).of_next h
  | rnd x nn => exact (((WritesOnly.refl rfl).nextDraw ⟨x, nn, rfl⟩).finishReg (fun _ => rfl) _).of_next h
  | loadRegs x =>
    have hrange : ∀ r ∈ regsUpTo x, writesReg r (.loadRegs x) = true := fun r hr =>
      decide_eq_true ((mem_regsUpTo x r).1 hr)
    exact (((WritesOnly.refl rfl).setRegs hrange _).jumpTo _).of_next h
  | ldI nnn => exact (((WritesOnly.refl rfl).setIndex (.inl ⟨nnn, rfl⟩) _).jumpTo _).of_next h
  | addI x => exact (((WritesOnly.refl rfl).setIndex (.inr (.inl ⟨x, rfl⟩)) _).jumpTo _).of_next h
  | ldF x => exact (((WritesOnly.refl rfl).setIndex (.inr (.inr ⟨x, rfl⟩)) _).jumpTo _).of_next h
  | ldB x => exact (((WritesOnly.refl rfl).memWriteList (.inl ⟨x, rfl⟩) _ _).jumpTo _).of_next h
  | storeRegs x => exact (((WritesOnly.refl rfl).memWriteList (.inr ⟨x, rfl⟩) _ _).jumpTo _).of_next h
  | cls => exact (((WritesOnly.refl rfl).setFrame (.inl rfl) _).jumpTo _).of_next h
  | drw x y n =>
    exact ((((WritesOnly.refl rfl).setFrame (.inr ⟨x, y, n, rfl⟩) _).setReg (decide_eq_true rfl) _).jumpTo _).of_next h
  | ldDTVx x => exact (((WritesOnly.refl rfl).setDT ⟨x, rfl⟩ _).jumpTo _).of_next h
  | ldSTVx x => exact (((WritesOnly.refl rfl).setST ⟨x, rfl⟩ _).jumpTo _).of_next h

/-! ### The invariant -/

/-- Memory changes only by a store, and a store keeps the canonical form. -/
theorem exec_keeps_wf {i : Instr} {s t : State} (hs : Memory.wf s.mem = true) (h : exec i s = .next t) :
    Memory.wf t.mem = true := by
  by_cases hmem : t.mem = s.mem
  · rwa [hmem]
  · obtain ⟨x, rfl⟩ | ⟨x, rfl⟩ := (exec_writesOnly h).mem hmem
    · cases h
      exact Memory.wf_putList _ _ hs
    · cases h
      exact Memory.wf_putList _ _ hs

/-- The stack changes only by a call, and a call writes the entry SP + 1, never entry 0 (10_state.md R25, R27). -/
theorem exec_keeps_stackAt_zero {i : Instr} {s t : State} (h : exec i s = .next t) : t.stackAt 0 = s.stackAt 0 := by
  by_cases hstack : t.stack = s.stack
  · rw [State.stackAt, hstack, State.stackAt]
  · obtain ⟨nnn, rfl⟩ := (exec_writesOnly h).stack hstack
    by_cases hs : s.sp = 15
    · exact (execCall_dropped_frame h hs).1 (.stackEntry 0) (by simp)
    · exact execCall_frame h hs (.stackEntry 0) (by simp)

/-- An instruction drops a call or a return, not both, so from quiet outputs it raises at most one diagnostic (R126). -/
theorem diagCount_outAfter_le {s : State} (hs : s.out.diagCount = 0) (i : Instr) : (s.outAfter i).diagCount ≤ 1 := by
  have honce : (s.dropsCall i).toNat + (s.dropsReturn i).toNat ≤ 1 := by
    cases i with
    | call _ => exact Bool.toNat_le _
    | ret => simp [State.dropsCall, Bool.toNat_le]
    | _ => exact Nat.zero_le 1
  simp only [Outputs.diagCount, Nat.add_eq_zero_iff, Bool.toNat_eq_zero] at hs
  simpa [Outputs.diagCount, State.outAfter, hs] using honce

/-- Settles O9: an instruction keeps each clause of the invariant, and an undecoded word raises its own diagnostic alone. -/
theorem stepKeepsInvariant : Obligations.StepKeepsInvariant := by
  rintro s t ⟨hwf, hzero, -⟩ h
  obtain ⟨i, -, hi⟩ | ⟨e, -, rfl⟩ := step_cases h
  · refine ⟨exec_keeps_wf (s := s.clearPulses) hwf hi, (exec_keeps_stackAt_zero hi).trans hzero, ?_⟩
    rw [(exec_writesOnly hi).out]
    exact diagCount_outAfter_le (Outputs.diagCount_quiet s.out) i
  · exact ⟨hwf, hzero, Nat.le_refl 1⟩

/-! ### The writers of each part -/

/-- After a step of a decoded instruction the pulses are low but for what the instruction dropped. -/
theorem outAfter_clearPulses (s : State) (i : Instr) : s.clearPulses.outAfter i =
    { s.out.quiet with diagCallDropped := s.dropsCall i, diagReturnDropped := s.dropsReturn i } := by
  cases i with
  | call nnn => simp [State.outAfter, State.dropsCall, State.dropsReturn, State.stackFull, Outputs.quiet]
  | ret => simp [State.outAfter, State.dropsCall, State.dropsReturn, State.stackEmpty, Outputs.quiet]
  | _ => rfl

/-- Settles O12: a decoded instruction writes only the parts of which it is a writer, and an undecoded word none. -/
theorem stepWritesEachPartOnlyByItsWriters : Obligations.StepWritesEachPartOnlyByItsWriters := by
  intro s t h
  obtain ⟨i, hd, hi⟩ | ⟨e, hd, rfl⟩ := step_cases h
  · obtain ⟨key, params, out, rand, reg, index, mem, frame, stackPointer, stack, delayTimer, soundTimer⟩ :=
      exec_writesOnly hi
    rw [outAfter_clearPulses] at out
    simp only [hd, Except.ok.injEq, reduceCtorEq, exists_false, exists_eq_left']
    refine ⟨key, params, ?_, ?_, ?_, ?_, rand, reg, index, mem, frame, stackPointer, stack, delayTimer, soundTimer⟩
    · rw [out]
    · simp [out, Outputs.quiet]
    · rw [out]; exact State.dropsCall_iff
    · rw [out]; exact State.dropsReturn_iff
  · rw [clearPulses_runUndecoded]
    simp [hd, Outputs.quiet]

end Sys2Proof.Machine
end

section
/-! PROOFS. What no instruction reads: ST (10_state.md R30) and the outputs (R37). States that agree on all the rest step to
states that agree on all the rest. -/
namespace Sys2Proof.Machine

/-- The states agree on all but ST and the outputs; also on ST when P holds, and on the outputs when Q holds. -/
def AgreeAsRead (P Q : Prop) (s s' : State) : Prop :=
  ∃ b o, s' = (s.setST b).setOut o ∧ (P → b = s.st) ∧ (Q → o = s.out)

/-- Both outcomes go on, with related states, or both stop, with the same fault. -/
inductive SameOutcome (R : State → State → Prop) :
    Host.Outcome State Fault Refusal → Host.Outcome State Fault Refusal → Prop where
  | next {u u' : State} (h : R u u') : SameOutcome R (.next u) (.next u')
  | fault (r : Fault) : SameOutcome R (.fault r) (.fault r)

theorem SameOutcome.exists_next {R : State → State → Prop} {a a' : Host.Outcome State Fault Refusal}
    (h : SameOutcome R a a') {u : State} (ha : a = .next u) : ∃ u', a' = .next u' ∧ R u u' := by
  cases h with
  | next hu => cases ha; exact ⟨_, rfl, hu⟩
  | fault r => cases ha

theorem SameOutcome.eq_fault {R : State → State → Prop} {a a' : Host.Outcome State Fault Refusal}
    (h : SameOutcome R a a') {r : Fault} (ha : a = .fault r) : a' = .fault r := by
  cases h with
  | next hu => cases ha
  | fault r => exact ha

/-- A return on an empty stack under the policy drop (10_state.md R26, 40_control_flow.md R75). -/
theorem execRet_of_drop {s : State} (hs : s.sp = 0) (hp : s.params.popEmpty = .drop) :
    execRet s = .next s.raiseReturnDropped.advance := by
  simp [execRet, State.stackEmpty, hs, hp]

/-- A return on an empty stack under the policy fault (R26, R75). -/
theorem execRet_of_fault {s : State} (hs : s.sp = 0) (hp : s.params.popEmpty = .fault) :
    execRet s = .fault (.returnUnderflow s.pc) := by
  simp [execRet, State.stackEmpty, hs, hp]

section
variable {P Q : Prop} {s s' : State}

theorem AgreeAsRead.skipIf (h : AgreeAsRead P Q s s') (c : Bool) : AgreeAsRead P Q (s.skipIf c) (s'.skipIf c) := by
  obtain ⟨b, o, rfl, hst, hout⟩ := h
  rw [State.skipIf_eq, State.skipIf_eq]
  exact ⟨b, o, rfl, hst, hout⟩

/-- The same change to the outputs of both keeps the agreement. -/
theorem AgreeAsRead.mapOut (h : AgreeAsRead P Q s s') (f : Outputs → Outputs) :
    AgreeAsRead P Q (s.setOut (f s.out)) (s'.setOut (f s'.out)) := by
  obtain ⟨b, o, rfl, hst, hout⟩ := h
  exact ⟨b, f o, rfl, hst, fun hQ => congrArg f (hout hQ)⟩

theorem AgreeAsRead.advance (h : AgreeAsRead P Q s s') : AgreeAsRead P Q s.advance s'.advance := by
  obtain ⟨b, o, rfl, hst, hout⟩ := h
  exact ⟨b, o, rfl, hst, hout⟩

theorem execCall_agree (nnn : Addr) (h : AgreeAsRead P Q s s') :
    SameOutcome (AgreeAsRead P Q) (execCall nnn s) (execCall nnn s') := by
  obtain ⟨b, o, rfl, hst, hout⟩ := id h
  by_cases hs : s.sp = 15
  · rw [execCall_of_full nnn hs, execCall_of_full nnn (s := (s.setST b).setOut o) hs]
    exact .next ((h.mapOut fun o => { o with diagCallDropped := true }).advance)
  · rw [execCall_of_not_full nnn hs, execCall_of_not_full nnn (s := (s.setST b).setOut o) hs, State.push_of_not_full _ hs,
      State.push_of_not_full (s := (s.setST b).setOut o) _ hs]
    exact .next ⟨b, o, rfl, hst, hout⟩

theorem execRet_agree (h : AgreeAsRead P Q s s') : SameOutcome (AgreeAsRead P Q) (execRet s) (execRet s') := by
  obtain ⟨b, o, rfl, hst, hout⟩ := id h
  by_cases hs : s.sp = 0
  · cases hp : s.params.popEmpty with
    | drop =>
      rw [execRet_of_drop hs hp, execRet_of_drop (s := (s.setST b).setOut o) hs hp]
      exact .next (h.mapOut fun o => { o with diagReturnDropped := true }).advance
    | fault =>
      rw [execRet_of_fault hs hp, execRet_of_fault (s := (s.setST b).setOut o) hs hp]
      exact .fault _
  · rw [execRet_of_not_empty hs, execRet_of_not_empty (s := (s.setST b).setOut o) hs, State.pop_of_not_empty hs,
      State.pop_of_not_empty (s := (s.setST b).setOut o) hs]
    exact .next ⟨b, o, rfl, hst, hout⟩

theorem execLdVxK_agree (x : Reg) (h : AgreeAsRead P Q s s') :
    SameOutcome (AgreeAsRead P Q) (execLdVxK x s) (execLdVxK x s') := by
  obtain ⟨b, o, rfl, hst, hout⟩ := id h
  have hscan : ((s.setST b).setOut o).firstKeyDown = s.firstKeyDown := rfl
  unfold execLdVxK
  rw [hscan]
  cases s.firstKeyDown with
  | some k => exact .next ⟨b, o, rfl, hst, hout⟩
  | none => exact .next h

/-- No instruction reads ST or the outputs. -/
theorem exec_agree (i : Instr) (h : AgreeAsRead P Q s s') : SameOutcome (AgreeAsRead P Q) (exec i s) (exec i s') := by
  obtain ⟨b, o, rfl, hst, hout⟩ := id h
  cases i with
  | call nnn => exact execCall_agree nnn h
  | ret => exact execRet_agree h
  | ldVxK x => exact execLdVxK_agree x h
  | seImm _ _ | sneImm _ _ | seReg _ _ | sneReg _ _ | skp _ | sknp _ => exact .next (h.skipIf _)
  | ldSTVx x => exact .next ⟨s.reg x, o, rfl, fun _ => rfl, hout⟩
  | _ => exact .next ⟨b, o, rfl, hst, hout⟩

/-- The step fetches and decodes alike, and then runs alike. -/
theorem step_agree (h : AgreeAsRead P Q s s') : SameOutcome (AgreeAsRead P Q) (step s) (step s') := by
  have hfetch : s'.fetchWord = s.fetchWord := by
    obtain ⟨b, o, rfl, -, -⟩ := h
    rfl
  have hquiet := h.mapOut Outputs.quiet
  unfold step
  rw [hfetch]
  cases decodeWord s.fetchWord with
  | ok i => exact exec_agree i hquiet
  | error e => exact .next (hquiet.mapOut fun o => { o with diagUndecoded := true }).advance

end

/-! ### The obligations -/

/-- Settles O13: the states agree on the outputs too, and so do the states after the step. -/
theorem noInstructionReadsTheSoundTimer : Obligations.NoInstructionReadsTheSoundTimer := by
  intro s b
  have h : AgreeAsRead False True s (s.setST b) := ⟨b, s.out, rfl, False.elim, fun _ => rfl⟩
  refine ⟨fun u hu => ?_, fun r => (step_agree h).eq_fault⟩
  obtain ⟨_, hu', c, o, rfl, -, hout⟩ := (step_agree h).exists_next hu
  exact ⟨_, hu', by rw [hout trivial]; rfl⟩

/-- Settles O14: the states agree on ST too, and so do the states after the step. -/
theorem outputsNeverInfluenceTheState : Obligations.OutputsNeverInfluenceTheState := by
  intro s o
  have h : AgreeAsRead True False s (s.setOut o) := ⟨s.st, o, rfl, fun _ => rfl, False.elim⟩
  refine ⟨fun u hu => ?_, fun r => (step_agree h).eq_fault⟩
  obtain ⟨_, hu', b, o', rfl, hst, -⟩ := (step_agree h).exists_next hu
  exact ⟨_, hu', by rw [hst trivial]; rfl⟩

end Sys2Proof.Machine
end

section
/-! PROOFS. Calls and returns nest (10_state.md R24-R26): a call, then a run that leaves SP and the live entries as they
are, then a return comes back to the word after the call. -/
namespace Sys2Proof.Machine

/-- A run of one list after another is a run of the lists together. -/
theorem execAll_append {is js : List Instr} {s t : State} (h : execAll is s = .next t) :
    execAll (is ++ js) s = execAll js t := by
  induction is generalizing s with
  | nil => cases h; rfl
  | cons i is ih =>
    simp only [execAll, List.cons_append] at h ⊢
    cases hi : exec i s with
    | next u => rw [hi] at h; exact ih h
    | fault r => rw [hi] at h; cases h
    | refused r => rw [hi] at h; cases h

/-- A part that is the same after all may be left out of what has changed. -/
theorem ChangesOnly.of_insert {P : Set StatePart} {p : StatePart} {s t : State} (h : ChangesOnly (insert p P) s t)
    (hp : p.same s t) : ChangesOnly P s t := by
  intro q hq
  by_cases hqp : q = p
  · exact hqp ▸ hp
  · exact h q fun hmem => hmem.elim hqp hq

/-- pc and the stack entries above SP: what nested calls and returns may change. -/
def pcAndEntriesAbove (sp : BitVec 4) : Set StatePart :=
  {p | p = .pc ∨ ∃ k : Fin 16, p = .stackEntry k ∧ sp.toNat < k.val}

/-- The run goes on to a state with SP and the live entries as before. -/
def Balanced (is : List Instr) (s : State) : Prop :=
  ∃ t, execAll is s = .next t ∧ t.sp = s.sp ∧ ChangesOnly (pcAndEntriesAbove s.sp) s t

theorem toNat_add_one_of_ne {n : BitVec 4} (h : n ≠ 15) : (n + 1).toNat = n.toNat + 1 := by
  have hne : n.toNat ≠ 15 := fun e => h (BitVec.eq_of_toNat_eq e)
  bv_omega

/-- A call that the stack has room for takes SP one up. -/
theorem sp_of_execCall {target : Addr} {s c : State} (hs : s.sp ≠ 15) (h : execCall target s = .next c) :
    c.sp = s.sp + 1 := by
  rw [execCall_of_not_full target hs, State.push_of_not_full _ hs] at h
  cases h
  rfl

/-- Such a call leaves the word after it at the new SP (40_control_flow.md R77). -/
theorem stackAt_of_execCall {target : Addr} {s c : State} (hs : s.sp ≠ 15) (h : execCall target s = .next c)
    {k : Fin 16} (hk : k.val = s.sp.toNat + 1) : c.stackAt k = s.returnAddress := by
  rw [execCall_of_not_full target hs] at h
  cases h
  exact (State.stackAt_push _ hs k).trans (if_pos hk)

/-- After a call and a balanced run the word after the call is on top of the stack. -/
theorem stackTop_of_balanced {target : Addr} {s c u : State} (hs : s.sp ≠ 15) (hcall : execCall target s = .next c)
    (husp : u.sp = c.sp) (hframe : ChangesOnly (pcAndEntriesAbove c.sp) c u) : u.stackTop = s.returnAddress := by
  have hlive : u.stackAt u.sp.toFin = c.stackAt u.sp.toFin :=
    hframe (.stackEntry u.sp.toFin) (by simp [pcAndEntriesAbove, husp])
  have htop : u.sp.toFin.val = s.sp.toNat + 1 := by
    rw [BitVec.val_toFin, husp, sp_of_execCall hs hcall, toNat_add_one_of_ne hs]
  exact hlive.trans (stackAt_of_execCall hs hcall htop)

/-- A call, a balanced run and a return change SP, pc and entries above the SP of before. -/
theorem call_balanced_ret_frame {target : Addr} {s c u t : State} (hs : s.sp ≠ 15) (hcall : execCall target s = .next c)
    (hframe : ChangesOnly (pcAndEntriesAbove c.sp) c u) (hu : u.sp ≠ 0) (hret : execRet u = .next t) :
    ChangesOnly (insert .stackPointer (pcAndEntriesAbove s.sp)) s t := by
  refine (((execCall_frame hcall hs).trans hframe).trans (execRet_frame hret hu)).mono ?_
  rw [pcAndEntriesAbove, sp_of_execCall hs hcall, toNat_add_one_of_ne hs]
  rintro p (((rfl | rfl | ⟨k, rfl, hk⟩) | (rfl | ⟨k, rfl, hk⟩)) | (rfl | rfl))
  · exact .inr (.inl rfl)
  · exact .inl rfl
  · exact .inr (.inr ⟨k, rfl, by omega⟩)
  · exact .inr (.inl rfl)
  · exact .inr (.inr ⟨k, rfl, by omega⟩)
  · exact .inr (.inl rfl)
  · exact .inl rfl

/-- A balanced run between a call and its return: pc is the word after the call, SP and the live entries are as before. -/
theorem call_balanced_ret {target : Addr} {is : List Instr} {s c : State} (hs : s.sp ≠ 15)
    (hcall : execCall target s = .next c) (his : Balanced is c) :
    ∃ t, execAll (.call target :: (is ++ [.ret])) s = .next t ∧ t.pc = s.returnAddress ∧ t.sp = s.sp ∧
      ChangesOnly (pcAndEntriesAbove s.sp) s t := by
  obtain ⟨u, hrun, husp, hframe⟩ := his
  have hu : u.sp = s.sp + 1 := husp.trans (sp_of_execCall hs hcall)
  have hne : u.sp ≠ 0 := by
    rw [hu]
    bv_omega
  have hret := execRet_of_not_empty hne
  have hsp : (u.pop.jumpTo u.stackTop).sp = s.sp := by
    rw [State.pop_of_not_empty hne]
    simp [hu]
  have hrets : execAll (is ++ [.ret]) c = .next (u.pop.jumpTo u.stackTop) := by
    rw [execAll_append hrun]
    simp only [execAll, exec, hret]
  exact ⟨_, by simp only [execAll, exec, hcall, hrets], stackTop_of_balanced hs hcall husp hframe, hsp,
    (call_balanced_ret_frame hs hcall hframe hne hret).of_insert hsp⟩

/-- With room for a list of calls the first one goes on, to a state with room for the others. -/
theorem exists_execCall (target : Addr) {targets : List Addr} {s : State}
    (h : s.sp.toNat + (target :: targets).length ≤ 15) :
    s.sp ≠ 15 ∧ ∃ c, execCall target s = .next c ∧ c.sp.toNat + targets.length ≤ 15 := by
  rw [List.length_cons] at h
  have hs : s.sp ≠ 15 := by
    rintro hfull
    rw [hfull, show (15 : BitVec 4).toNat = 15 from rfl] at h
    omega
  have hcall := execCall_of_not_full target hs
  refine ⟨hs, _, hcall, ?_⟩
  rw [sp_of_execCall hs hcall, toNat_add_one_of_ne hs]
  omega

/-- Calls to the targets in order, then as many returns. -/
def callsThenReturns (targets : List Addr) : List Instr :=
  targets.map .call ++ List.replicate targets.length .ret

/-- The first call goes with the last return. -/
theorem callsThenReturns_cons (target : Addr) (targets : List Addr) :
    callsThenReturns (target :: targets) = .call target :: (callsThenReturns targets ++ [.ret]) := by
  simp [callsThenReturns, List.replicate_succ']

/-- Calls that the stack has room for, followed by as many returns, are balanced. -/
theorem callsThenReturns_balanced (targets : List Addr) {s : State} (h : s.sp.toNat + targets.length ≤ 15) :
    Balanced (callsThenReturns targets) s := by
  induction targets generalizing s with
  | nil => exact ⟨s, rfl, rfl, .refl _ s⟩
  | cons target targets ih =>
    obtain ⟨hs, c, hcall, hroom⟩ := exists_execCall target h
    obtain ⟨t, hrun, -, hsp, hframe⟩ := call_balanced_ret hs hcall (ih hroom)
    exact ⟨t, by rwa [callsThenReturns_cons], hsp, hframe⟩

/-- Settles O22: the calls and returns between the first call and the last return are balanced, by induction. -/
theorem callsAndReturnsNest : Obligations.CallsAndReturnsNest := by
  intro target targets s h
  obtain ⟨hs, c, hcall, hroom⟩ := exists_execCall target h
  obtain ⟨t, hrun, hpc, hsp, hframe⟩ := call_balanced_ret hs hcall (callsThenReturns_balanced targets hroom)
  rw [← callsThenReturns_cons] at hrun
  refine ⟨t, hrun, ?_, hsp, hframe⟩
  rw [hpc, State.returnAddress, BitVec.toNat_add]
  rfl

end Sys2Proof.Machine
end

section
/-! PROOFS. Memory and the fetch (20_memory.md): the instruction word is big-endian (R52), and bytes that an instruction
stores over the next word are what the next step fetches (R61). -/
namespace Sys2Proof.Machine

/-! ### The fetch -/

/-- Settles O5: the word is the byte at pc in front of the byte at pc + 1. -/
theorem fetchIsBigEndian : Obligations.FetchIsBigEndian := fun _ => toNat_wordOfBytes _ _

theorem State.fetchWord_high (s : State) : s.fetchWord.toNat / 256 = (s.memRead s.pc.toNat).toNat := by
  have hword := fetchIsBigEndian s
  have hlow := (s.memRead (s.pc.toNat + 1)).isLt
  omega

theorem State.fetchWord_low (s : State) : s.fetchWord.toNat % 256 = (s.memRead (s.pc.toNat + 1)).toNat := by
  have hword := fetchIsBigEndian s
  have hlow := (s.memRead (s.pc.toNat + 1)).isLt
  omega

/-- The wrap of pc at 2^16 is not seen in the reduced address, since 4096 divides 2^16 (R46). -/
theorem maskAddr_pc_add_two (pc : Word) (d : Nat) : maskAddr ((pc + 2).toNat + d) = maskAddr (pc.toNat + 2 + d) := by
  simp only [maskAddr, Config.memSize, BitVec.toNat_add, show (2 : Word).toNat = 2 from rfl]
  omega

/-- Bytes are stored at a, a + 1, ... and pc advances: where byte k of them falls on one of the two addresses of the next
word, the fetch finds it there (R61). -/
theorem State.fetchWord_memWriteList_advance {s : State} (hs : Memory.wf s.mem = true) {bs : List Byte}
    (hl : bs.length ≤ Config.memSize) (a : Nat) {k : Nat} (hk : k < bs.length) :
    ((a + k) % 4096 = (s.pc.toNat + 2) % 4096 →
      (s.memWriteList a bs).advance.fetchWord.toNat / 256 = (bs.getD k 0).toNat) ∧
    ((a + k) % 4096 = (s.pc.toNat + 3) % 4096 →
      (s.memWriteList a bs).advance.fetchWord.toNat % 256 = (bs.getD k 0).toNat) := by
  rw [fetchWord_high, fetchWord_low]
  constructor <;> intro hmeet <;> refine congrArg BitVec.toNat (memRead_memWriteList_inside hs hl hk ?_)
  · exact (maskAddr_pc_add_two s.pc 0).trans hmeet.symm
  · exact (maskAddr_pc_add_two s.pc 1).trans hmeet.symm

/-! ### The stored bytes -/

theorem length_map_regsUpTo (f : Reg → Byte) (x : Reg) : ((regsUpTo x).map f).length = x.val + 1 := by
  rw [List.length_map, length_regsUpTo]

/-- Byte k that Fx55 stores is V[k] (42_index_memory.md R103). -/
theorem getD_map_regsUpTo (f : Reg → Byte) {x k : Reg} (hk : k ≤ x) : ((regsUpTo x).map f).getD k.val 0 = f k := by
  have hlt : k.val < (regsUpTo x).length := (length_regsUpTo x).symm ▸ Nat.lt_succ_of_le hk
  rw [List.getD_eq_getElem _ _ (by rwa [List.length_map]), List.getElem_map, ← List.getD_eq_getElem _ 0 hlt,
    getD_regsUpTo x k hk]

theorem length_bcdDigits (b : Byte) : (bcdDigits b).length = 3 := rfl

/-- Digit k that Fx33 stores is the one of weight 10^(2 - k) (R102). -/
theorem toNat_getD_bcdDigits (b : Byte) {k : Nat} (hk : k < 3) :
    ((bcdDigits b).getD k 0).toNat = b.toNat / 10 ^ (2 - k) % 10 := by
  have hb := b.isLt
  match k, hk with
  | 0, _ => exact (BitVec.toNat_ofNat _ 8).trans (by omega)
  | 1, _ => exact (BitVec.toNat_ofNat _ 8).trans (by omega)
  | 2, _ => exact (BitVec.toNat_ofNat _ 8).trans (by omega)

/-! ### The obligation -/

/-- Settles O38: both instructions store a list of bytes and advance, so the fetch finds byte k of the list. -/
theorem storedInstructionIsFetchedNext : Obligations.StoredInstructionIsFetchedNext := by
  intro x s hs
  refine ⟨⟨_, rfl, fun k hk => ?_⟩, ⟨_, rfl, fun k hk => ?_⟩⟩
  · have hlen := length_map_regsUpTo s.reg x
    have hfits : x.val + 1 ≤ Config.memSize := x.isLt.trans (by decide)
    have hfetch := State.fetchWord_memWriteList_advance hs (hlen.trans_le hfits) s.i.toNat
      ((Nat.lt_succ_of_le hk).trans_eq hlen.symm)
    rwa [getD_map_regsUpTo s.reg hk] at hfetch
  · have hlen := length_bcdDigits (s.reg x)
    have hfetch := State.fetchWord_memWriteList_advance hs (hlen.trans_le (by decide)) s.i.toNat (hk.trans_eq hlen.symm)
    rwa [toNat_getD_bcdDigits (s.reg x) hk] at hfetch

end Sys2Proof.Machine
end

section
/-! PROOFS. The encoding (30_encoding.md): the fields of a word placed from fields, the word placed from a word's fields,
and from these that decoding and encoding are inverse and which words are undecoded. -/
namespace Sys2Proof

/-! ### The fields of a placed word (R63)

A pattern fixes the family digit and the digits below its last field: those of its hexadecimal digits that a field takes
are 0. -/

section
variable {p : Nat}

theorem toNat_fieldF_placeNNN (nnn : Addr) (hp : p ≤ 0xF000) (hfree : p % 0x1000 = 0) :
    (fieldF (placeNNN p nnn)).toNat = p / 0x1000 := by
  rw [toNat_fieldF, toNat_placeNNN nnn hp]
  omega

theorem fieldNNN_placeNNN (nnn : Addr) (hp : p ≤ 0xF000) (hfree : p % 0x1000 = 0) :
    fieldNNN (placeNNN p nnn) = nnn := by
  apply BitVec.eq_of_toNat_eq
  rw [toNat_fieldNNN, toNat_placeNNN nnn hp]
  omega

theorem toNat_fieldF_placeX (x : Reg) (hp : p ≤ 0xF0FF) (hfree : p % 0x1000 < 0x100) :
    (fieldF (placeX p x)).toNat = p / 0x1000 := by
  rw [toNat_fieldF, toNat_placeX x hp]
  omega

theorem fieldX_placeX (x : Reg) (hp : p ≤ 0xF0FF) (hfree : p % 0x1000 < 0x100) : fieldX (placeX p x) = x := by
  apply Fin.ext
  rw [val_fieldX, toNat_placeX x hp]
  omega

theorem toNat_fieldNN_placeX (x : Reg) (hp : p ≤ 0xF0FF) : (fieldNN (placeX p x)).toNat = p % 0x100 := by
  rw [toNat_fieldNN, toNat_placeX x hp]
  omega

theorem toNat_fieldF_placeXNN (x : Reg) (nn : Byte) (hp : p ≤ 0xF000) (hfree : p % 0x1000 = 0) :
    (fieldF (placeXNN p x nn)).toNat = p / 0x1000 := by
  rw [toNat_fieldF, toNat_placeXNN x nn hp]
  omega

theorem fieldX_placeXNN (x : Reg) (nn : Byte) (hp : p ≤ 0xF000) (hfree : p % 0x1000 = 0) :
    fieldX (placeXNN p x nn) = x := by
  apply Fin.ext
  rw [val_fieldX, toNat_placeXNN x nn hp]
  omega

theorem fieldNN_placeXNN (x : Reg) (nn : Byte) (hp : p ≤ 0xF000) (hfree : p % 0x1000 = 0) :
    fieldNN (placeXNN p x nn) = nn := by
  apply BitVec.eq_of_toNat_eq
  rw [toNat_fieldNN, toNat_placeXNN x nn hp]
  omega

theorem toNat_fieldF_placeXY (x y : Reg) (hp : p ≤ 0xF00F) (hfree : p % 0x1000 < 0x10) :
    (fieldF (placeXY p x y)).toNat = p / 0x1000 := by
  rw [toNat_fieldF, toNat_placeXY x y hp]
  omega

theorem fieldX_placeXY (x y : Reg) (hp : p ≤ 0xF00F) (hfree : p % 0x1000 < 0x10) : fieldX (placeXY p x y) = x := by
  apply Fin.ext
  rw [val_fieldX, toNat_placeXY x y hp]
  omega

theorem fieldY_placeXY (x y : Reg) (hp : p ≤ 0xF00F) (hfree : p % 0x1000 < 0x10) : fieldY (placeXY p x y) = y := by
  apply Fin.ext
  rw [val_fieldY, toNat_placeXY x y hp]
  omega

theorem toNat_fieldN_placeXY (x y : Reg) (hp : p ≤ 0xF00F) : (fieldN (placeXY p x y)).toNat = p % 0x10 := by
  rw [toNat_fieldN, toNat_placeXY x y hp]
  omega

end

/-! ### Decode after encode -/

/-- The word of a well-formed instruction decodes to it: the fixed digits select its row, the fields are its operands. -/
theorem decodeWord_encode {i : Instr} (hi : i.wellFormed = true) : decodeWord (encode i) = .ok i := by
  cases i with
  | cls | ret => rfl
  | jp nnn | call nnn | ldI nnn | jpV0 nnn =>
    simp [encode, decodeWord, toNat_fieldF_placeNNN, fieldNNN_placeNNN]
  | seImm x nn | sneImm x nn | ldImm x nn | addImm x nn | rnd x nn =>
    simp [encode, decodeWord, toNat_fieldF_placeXNN, fieldX_placeXNN, fieldNN_placeXNN]
  | seReg x y =>
    simp [encode, decodeWord, decodeFamily5, toNat_fieldF_placeXY, fieldX_placeXY, fieldY_placeXY, toNat_fieldN_placeXY]
  | ldReg x y | orReg x y | andReg x y | xorReg x y | addReg x y | subReg x y | shr x y | subn x y | shl x y =>
    simp [encode, decodeWord, decodeFamily8, toNat_fieldF_placeXY, fieldX_placeXY, fieldY_placeXY, toNat_fieldN_placeXY]
  | sneReg x y =>
    simp [encode, decodeWord, decodeFamily9, toNat_fieldF_placeXY, fieldX_placeXY, fieldY_placeXY, toNat_fieldN_placeXY]
  | drw x y n =>
    have hn : n < 16 := of_decide_eq_true hi
    have hp : 0xD000 + n ≤ 0xF00F := by omega
    have hfree : (0xD000 + n) % 0x1000 < 0x10 := by omega
    have hF : (0xD000 + n) / 0x1000 = 0xD := by omega
    have hN : (0xD000 + n) % 0x10 = n := by omega
    simp only [encode, decodeWord, toNat_fieldF_placeXY x y hp hfree, hF, fieldX_placeXY x y hp hfree,
      fieldY_placeXY x y hp hfree, toNat_fieldN_placeXY x y hp, hN]
  | skp x | sknp x =>
    simp [encode, decodeWord, decodeFamilyE, toNat_fieldF_placeX, fieldX_placeX, toNat_fieldNN_placeX]
  | ldVxDT x | ldVxK x | ldDTVx x | ldSTVx x | addI x | ldF x | ldB x | storeRegs x | loadRegs x =>
    simp [encode, decodeWord, decodeFamilyF, toNat_fieldF_placeX, fieldX_placeX, toNat_fieldNN_placeX]

/-- Settles O1: the word decodes to the instruction, and so do its two bytes. -/
theorem decodeOfEncodeIsIdentity : Obligations.DecodeOfEncodeIsIdentity := by
  intro i rest hi
  have hword := decodeWord_encode hi
  exact ⟨hword, by simp only [encodeBytes, decode_bytesOfWord, hword]⟩

/-! ### Encode after decode -/

section
variable {w : Word} {p : Nat} {i : Instr}

/-! A word is what its pattern places its fields to. -/

theorem placeNNN_fields (hF : (fieldF w).toNat = p / 0x1000) (hfree : p % 0x1000 = 0) :
    placeNNN p (fieldNNN w) = w := by
  apply BitVec.eq_of_toNat_eq
  have hw := w.isLt
  rw [toNat_fieldF] at hF
  rw [toNat_placeNNN _ (by omega), toNat_fieldNNN]
  omega

theorem placeX_fields (hF : (fieldF w).toNat = p / 0x1000) (hNN : (fieldNN w).toNat = p % 0x100)
    (hfree : p % 0x1000 < 0x100) : placeX p (fieldX w) = w := by
  apply BitVec.eq_of_toNat_eq
  have hw := w.isLt
  rw [toNat_fieldF] at hF
  rw [toNat_fieldNN] at hNN
  rw [toNat_placeX _ (by omega), val_fieldX]
  omega

theorem placeXNN_fields (hF : (fieldF w).toNat = p / 0x1000) (hfree : p % 0x1000 = 0) :
    placeXNN p (fieldX w) (fieldNN w) = w := by
  apply BitVec.eq_of_toNat_eq
  have hw := w.isLt
  rw [toNat_fieldF] at hF
  rw [toNat_placeXNN _ _ (by omega), val_fieldX, toNat_fieldNN]
  omega

theorem placeXY_fields (hF : (fieldF w).toNat = p / 0x1000) (hN : (fieldN w).toNat = p % 0x10)
    (hfree : p % 0x1000 < 0x10) : placeXY p (fieldX w) (fieldY w) = w := by
  apply BitVec.eq_of_toNat_eq
  have hw := w.isLt
  rw [toNat_fieldF] at hF
  rw [toNat_fieldN] at hN
  rw [toNat_placeXY _ _ (by omega), val_fieldX, val_fieldY]
  omega

/-! The families with a sub-tag: the family digit and the sub-tag are those of the instruction's pattern. -/

theorem encode_of_decodeFamily0 (h : decodeFamily0 w = .ok i) : i.wellFormed = true ∧ encode i = w := by
  unfold decodeFamily0 at h
  split at h <;> cases h
  all_goals
    rename_i hw
    exact ⟨rfl, BitVec.eq_of_toNat_eq hw.symm⟩

theorem encode_of_decodeFamily5 (hF : (fieldF w).toNat = 0x5) (h : decodeFamily5 w = .ok i) :
    i.wellFormed = true ∧ encode i = w := by
  unfold decodeFamily5 at h
  split at h <;> cases h
  rename_i hN
  exact ⟨rfl, placeXY_fields hF hN (by decide)⟩

theorem encode_of_decodeFamily8 (hF : (fieldF w).toNat = 0x8) (h : decodeFamily8 w = .ok i) :
    i.wellFormed = true ∧ encode i = w := by
  unfold decodeFamily8 at h
  split at h <;> cases h
  all_goals
    rename_i hN
    exact ⟨rfl, placeXY_fields hF hN (by decide)⟩

theorem encode_of_decodeFamily9 (hF : (fieldF w).toNat = 0x9) (h : decodeFamily9 w = .ok i) :
    i.wellFormed = true ∧ encode i = w := by
  unfold decodeFamily9 at h
  split at h <;> cases h
  rename_i hN
  exact ⟨rfl, placeXY_fields hF hN (by decide)⟩

theorem encode_of_decodeFamilyE (hF : (fieldF w).toNat = 0xE) (h : decodeFamilyE w = .ok i) :
    i.wellFormed = true ∧ encode i = w := by
  unfold decodeFamilyE at h
  split at h <;> cases h
  all_goals
    rename_i hNN
    exact ⟨rfl, placeX_fields hF hNN (by decide)⟩

theorem encode_of_decodeFamilyF (hF : (fieldF w).toNat = 0xF) (h : decodeFamilyF w = .ok i) :
    i.wellFormed = true ∧ encode i = w := by
  unfold decodeFamilyF at h
  split at h <;> cases h
  all_goals
    rename_i hNN
    exact ⟨rfl, placeX_fields hF hNN (by decide)⟩

/-- Dxyn: the digit n is the row count, and it counts below 16. -/
theorem encode_drw_fields (hF : (fieldF w).toNat = 0xD) :
    (Instr.drw (fieldX w) (fieldY w) (fieldN w).toNat).wellFormed = true ∧
      encode (.drw (fieldX w) (fieldY w) (fieldN w).toNat) = w := by
  have hn := (fieldN w).isLt
  exact ⟨decide_eq_true hn, placeXY_fields (by omega) (by omega) (by omega)⟩

end

/-- Settles O2, by the family digit: the word has the fixed digits of the row it decodes in, and its fields are the
operands. -/
theorem encodeOfDecodeIsIdentity : Obligations.EncodeOfDecodeIsIdentity := by
  intro w i
  unfold decodeWord
  match hF : (fieldF w).toNat, (fieldF w).isLt with
  | 0x0, _ => exact encode_of_decodeFamily0
  | 0x5, _ => exact encode_of_decodeFamily5 hF
  | 0x8, _ => exact encode_of_decodeFamily8 hF
  | 0x9, _ => exact encode_of_decodeFamily9 hF
  | 0xE, _ => exact encode_of_decodeFamilyE hF
  | 0xF, _ => exact encode_of_decodeFamilyF hF
  | 0xD, _ =>
    rintro ⟨⟩
    exact encode_drw_fields hF
  | 0x1, _ | 0x2, _ | 0xA, _ | 0xB, _ =>
    rintro ⟨⟩
    exact ⟨rfl, placeNNN_fields hF (by decide)⟩
  | 0x3, _ | 0x4, _ | 0x6, _ | 0x7, _ | 0xC, _ =>
    rintro ⟨⟩
    exact ⟨rfl, placeXNN_fields hF (by decide)⟩
  | _ + 16, hlt => omega

/-! ### The undecoded words (R70) -/

section
variable (w : Word)

/-! In each family with a sub-tag the undecoded words are those whose sub-tag no row lists. -/

theorem decodeFamily0_error_iff : (∃ e, decodeFamily0 w = .error e) ↔ w.toNat ≠ 0x00E0 ∧ w.toNat ≠ 0x00EE := by
  unfold decodeFamily0
  split <;> simp_all

theorem decodeFamily5_error_iff : (∃ e, decodeFamily5 w = .error e) ↔ w.toNat % 16 ≠ 0 := by
  rw [← toNat_fieldN]
  unfold decodeFamily5
  split <;> simp_all

theorem decodeFamily8_error_iff :
    (∃ e, decodeFamily8 w = .error e) ↔ w.toNat % 16 ∈ [0x8, 0x9, 0xA, 0xB, 0xC, 0xD, 0xF] := by
  have hlt := (fieldN w).isLt
  rw [← toNat_fieldN]
  unfold decodeFamily8
  split
  case h_10 => grind -- no listed sub-tag: of the 16 digits the table's seven remain
  all_goals simp [*]

theorem decodeFamily9_error_iff : (∃ e, decodeFamily9 w = .error e) ↔ w.toNat % 16 ≠ 0 := by
  rw [← toNat_fieldN]
  unfold decodeFamily9
  split <;> simp_all

theorem decodeFamilyE_error_iff : (∃ e, decodeFamilyE w = .error e) ↔ w.toNat % 256 ∉ [0x9E, 0xA1] := by
  rw [← toNat_fieldNN]
  unfold decodeFamilyE
  split <;> simp_all

theorem decodeFamilyF_error_iff :
    (∃ e, decodeFamilyF w = .error e) ↔
      w.toNat % 256 ∉ [0x07, 0x0A, 0x15, 0x18, 0x1E, 0x29, 0x33, 0x55, 0x65] := by
  rw [← toNat_fieldNN]
  unfold decodeFamilyF
  split <;> simp_all

end

/-- Settles O3, by the family digit: only the families with a sub-tag leave words undecoded. -/
theorem undecodedWordsAreExactlyTheTable : Obligations.UndecodedWordsAreExactlyTheTable := by
  intro w
  rw [← toNat_fieldF]
  match hF : (fieldF w).toNat, (fieldF w).isLt with
  | 0x0, _ => simpa [decodeWord, hF] using decodeFamily0_error_iff w
  | 0x5, _ => simpa [decodeWord, hF] using decodeFamily5_error_iff w
  | 0x8, _ => simpa [decodeWord, hF] using decodeFamily8_error_iff w
  | 0x9, _ => simpa [decodeWord, hF] using decodeFamily9_error_iff w
  | 0xE, _ => simpa [decodeWord, hF] using decodeFamilyE_error_iff w
  | 0xF, _ => simpa [decodeWord, hF] using decodeFamilyF_error_iff w
  | 0x1, _ | 0x2, _ | 0x3, _ | 0x4, _ | 0x6, _ | 0x7, _ | 0xA, _ | 0xB, _ | 0xC, _ | 0xD, _ => simp [decodeWord, hF]
  | _ + 16, hlt => omega

/-- Settles O4: each word is the encoding of the instruction. -/
theorem sampleWordsDecode : Obligations.SampleWordsDecode :=
  ⟨decodeWord_encode (i := .cls) rfl, decodeWord_encode (i := .jp 0xABC) rfl, decodeWord_encode (i := .seImm 1 0x22) rfl,
   decodeWord_encode (i := .addReg 1 2) rfl, decodeWord_encode (i := .ldI 0x123) rfl,
   decodeWord_encode (i := .drw 0 1 5) rfl, decodeWord_encode (i := .skp 1) rfl, decodeWord_encode (i := .ldVxK 2) rfl⟩

end Sys2Proof
end

section
/-! PROOFS. One step, fetched and decoded (30_encoding.md R66, R69): a decoded word is executed, an undecoded word only
advances, and the one step that stops is a return on an empty stack under the policy fault. -/
namespace Sys2Proof.Machine

theorem step_of_decoded {s : State} {i : Instr} (h : decodeWord s.fetchWord = .ok i) : step s = exec i s.clearPulses := by
  rw [step, h]

theorem step_of_undecoded {s : State} {e : Reject} (h : decodeWord s.fetchWord = .error e) :
    step s = .next s.clearPulses.runUndecoded := by
  rw [step, h]

/-- Every instruction goes on, but for a return that finds the stack empty under the policy fault (40_control_flow.md
R75). -/
theorem exec_next_or_underflow (i : Instr) (s : State) :
    (∃ t, exec i s = .next t) ∨
      (i = .ret ∧ s.params.popEmpty = .fault ∧ s.sp = 0 ∧ exec i s = .fault (.returnUnderflow s.pc)) := by
  cases i with
  | ret =>
    by_cases hs : s.sp = 0
    · cases hp : s.params.popEmpty with
      | drop => exact .inl ⟨_, execRet_of_drop hs hp⟩
      | fault => exact .inr ⟨rfl, rfl, hs, execRet_of_fault hs hp⟩
    · exact .inl ⟨_, execRet_of_not_empty hs⟩
  | call nnn =>
    by_cases hs : s.sp = 15
    · exact .inl ⟨_, execCall_of_full nnn hs⟩
    · exact .inl ⟨_, execCall_of_not_full nnn hs⟩
  | ldVxK x =>
    left
    simp only [exec, execLdVxK]
    cases s.firstKeyDown with
    | some k => exact ⟨_, rfl⟩
    | none => exact ⟨_, rfl⟩
  | _ => exact .inl ⟨_, rfl⟩

/-- Settles O8: the instruction that stops is RET, and its word is 00EE. -/
theorem stepStopsOnlyOnReturnUnderflow : Obligations.StepStopsOnlyOnReturnUnderflow := by
  intro s
  cases hd : decodeWord s.fetchWord with
  | error e => exact .inl ⟨_, step_of_undecoded hd⟩
  | ok i =>
    rw [step_of_decoded hd]
    obtain hnext | ⟨rfl, hp, hs, hfault⟩ := exec_next_or_underflow i s.clearPulses
    · exact .inl hnext
    · obtain ⟨-, hword⟩ := encodeOfDecodeIsIdentity _ _ hd
      exact .inr ⟨hp, hs, hword.symm, hfault⟩

/-- Two bytes decode as the word that they make. -/
theorem decodeWord_of_decode_pair {first second : Byte} {i : Instr} (h : decode [first, second] = .ok (i, [])) :
    decodeWord (wordOfBytes first second) = .ok i := by
  cases hd : decodeWord (wordOfBytes first second) with
  | ok j => simpa [decode, hd] using h
  | error e => simp [decode, hd] at h

/-- Settles O6: the fetched word is that of the two bytes at pc, and the pulses are outputs. -/
theorem stepRunsTheDecodedInstruction : Obligations.StepRunsTheDecodedInstruction := by
  intro s i _ h
  have hd : decodeWord s.fetchWord = .ok i := decodeWord_of_decode_pair h
  exact ⟨step_of_decoded hd, s.setOut_frame _, rfl⟩

/-- Settles O7: the no-op raises its diagnostic and advances pc. -/
theorem undecodedWordOnlyAdvances : Obligations.UndecodedWordOnlyAdvances := by
  intro s e h
  rw [step_of_undecoded h, clearPulses_runUndecoded]
  exact ⟨_, rfl, BitVec.toNat_add _ _, rfl, rfl, s.setOut_advance_frame _⟩

end Sys2Proof.Machine
end

section
/-! PROOFS. Control transfer (40_control_flow.md): the jumps, the call, the return and the skips, each from the rule of the
operation it runs: a jump, a push, a pop, a skip on a condition. -/
namespace Sys2Proof.Machine

/-! ### Jumps -/

/-- The target of Bnnn is the sum: it is below 4096 + 256, so 16 bits hold it (R82). -/
theorem State.toNat_offsetTarget (s : State) (nnn : Addr) :
    (s.offsetTarget nnn).toNat = nnn.toNat + (s.reg 0).toNat := by
  have hnnn := nnn.isLt
  have hv0 := (s.reg 0).isLt
  rw [State.offsetTarget, BitVec.toNat_add, toNat_zext16, BitVec.toNat_setWidth]
  omega

/-- Settles O16: the word is the encoding of JP, and the instruction is a jump to nnn. -/
theorem jumpSetsPc : Obligations.JumpSetsPc :=
  fun nnn _ => ⟨decodeWord_encode (i := .jp nnn) rfl, _, rfl, toNat_zext16 nnn, rfl⟩

/-- Settles O17: the instruction is a jump to the offset target. -/
theorem jumpWithOffsetAddsV0 : Obligations.JumpWithOffsetAddsV0 :=
  fun nnn s => ⟨decodeWord_encode (i := .jpV0 nnn) rfl, _, rfl, s.toNat_offsetTarget nnn, rfl⟩

/-! ### Call and return -/

/-- Settles O18, by whether the stack is full. -/
theorem callPushesTheReturnAddress : Obligations.CallPushesTheReturnAddress := by
  refine fun nnn s => ⟨decodeWord_encode (i := .call nnn) rfl, fun hroom => ?_, fun hfull => ?_⟩
  · have hs : s.sp ≠ 15 := by
      intro hsp
      exact absurd (hsp ▸ hroom) (by decide)
    have hcall := execCall_of_not_full nnn hs
    refine ⟨_, hcall, ?_, toNat_zext16 nnn, fun k hk => ?_, fun k hk => ?_⟩
    · rw [sp_of_execCall hs hcall, toNat_add_one_of_ne hs]
    · rw [stackAt_of_execCall hs hcall hk]
      exact BitVec.toNat_add _ _
    · exact (State.stackAt_push _ hs k).trans (if_neg hk)
  · have hs : s.sp = 15 := BitVec.eq_of_toNat_eq hfull
    exact ⟨_, execCall_of_full nnn hs, rfl, fun _ => rfl, BitVec.toNat_add _ _, rfl⟩

/-- A pop of a stack that is not empty takes one from SP, with no wrap (10_state.md R26). -/
theorem State.toNat_sp_pop {s : State} (hs : s.sp ≠ 0) : s.pop.sp.toNat = s.sp.toNat - 1 := by
  rw [State.pop_of_not_empty hs]
  bv_omega

/-- Settles O19: a pop and a jump to the top when the stack holds an entry, else what the policy says. -/
theorem returnPopsTheTarget : Obligations.ReturnPopsTheTarget := by
  refine ⟨decodeWord_encode (i := .ret) rfl, fun s => ⟨fun hs => ?_, fun hs hp => ?_, execRet_of_fault⟩⟩
  · refine ⟨_, execRet_of_not_empty hs, fun k hk => ?_, State.toNat_sp_pop hs, fun k => ?_⟩
    · exact congrArg s.stackAt (Fin.ext hk.symm)
    · exact s.pop_frame hs (.stackEntry k) (by simp)
  · exact ⟨_, execRet_of_drop hs hp, hs, BitVec.toNat_add _ _, rfl⟩

/-! ### Skips -/

/-- A skip on a condition adds 4 to pc when it holds and 2 when it does not, mod 2^16 (R78-R81). -/
theorem State.toNat_pc_skipIf (s : State) (c : Bool) :
    (s.skipIf c).pc.toNat = (s.pc.toNat + if c then 4 else 2) % 65536 := by
  rw [State.skipIf_eq]
  cases c with
  | true => exact BitVec.toNat_add _ _
  | false => exact BitVec.toNat_add _ _

theorem State.reg_skipIf (s : State) (c : Bool) (x : Reg) : (s.skipIf c).reg x = s.reg x := by
  rw [State.skipIf_eq]
  rfl

/-- A skip when two bytes are equal, as 3xnn and 5xy0 are. -/
theorem State.skipIf_beq (s : State) (a b : Byte) :
    (s.skipIf (a == b)).reg vf = s.reg vf ∧
      (s.skipIf (a == b)).pc.toNat = (s.pc.toNat + if a = b then 4 else 2) % 65536 :=
  ⟨s.reg_skipIf _ vf, by simp only [State.toNat_pc_skipIf, beq_iff_eq]⟩

/-- A skip when two bytes differ, as 4xnn and 9xy0 are. -/
theorem State.skipIf_bne (s : State) (a b : Byte) :
    (s.skipIf (a != b)).reg vf = s.reg vf ∧
      (s.skipIf (a != b)).pc.toNat = (s.pc.toNat + if a = b then 2 else 4) % 65536 :=
  ⟨s.reg_skipIf _ vf, by simp only [State.toNat_pc_skipIf, bne_iff_ne, ite_not]⟩

/-- Settles O20: the instructions skip when V[x] and nn are equal, and when they differ. -/
theorem skipsComparingWithAByte : Obligations.SkipsComparingWithAByte :=
  fun x nn s => ⟨decodeWord_encode (i := .seImm x nn) rfl, decodeWord_encode (i := .sneImm x nn) rfl,
    ⟨_, rfl, s.skipIf_beq _ _⟩, ⟨_, rfl, s.skipIf_bne _ _⟩⟩

/-- A word of family 5 or 9 whose low digit is not 0 is undecoded (30_encoding.md R70). -/
theorem decodeWord_error_of_low_digit {p n : Nat} (hp : p = 0x5000 ∨ p = 0x9000) (x y : Reg) (hn : 0 < n)
    (hlt : n < 16) :
    ∃ e, decodeWord (BitVec.ofNat 16 (p + 0x100 * x.val + 0x10 * y.val + n)) = .error e := by
  have hval : (BitVec.ofNat 16 (p + 0x100 * x.val + 0x10 * y.val + n)).toNat = p + 0x100 * x.val + 0x10 * y.val + n := by
    rw [BitVec.toNat_ofNat]
    omega
  rw [undecodedWordsAreExactlyTheTable, hval]
  rcases hp with rfl | rfl
  · exact .inr (.inl (by omega))
  · exact .inr (.inr (.inr (.inl (by omega))))

/-- Settles O21: the instructions skip when V[x] and V[y] are equal, and when they differ; the words with another low digit
are in the table of undecoded words. -/
theorem skipsComparingRegisters : Obligations.SkipsComparingRegisters :=
  fun x y s => ⟨decodeWord_encode (i := .seReg x y) rfl, decodeWord_encode (i := .sneReg x y) rfl,
    fun _ hn hlt => ⟨decodeWord_error_of_low_digit (.inl rfl) x y hn hlt, decodeWord_error_of_low_digit (.inr rfl) x y hn hlt⟩,
    ⟨_, rfl, s.skipIf_beq _ _⟩, ⟨_, rfl, s.skipIf_bne _ _⟩⟩

end Sys2Proof.Machine
end

section
/-! PROOFS. Registers and arithmetic (41_register_alu.md): what a register write with an advance does, what a flag write
before it changes of the operands, and from these the rule of each instruction. -/
namespace Sys2Proof.Machine

/-! ### A register write and an advance -/

namespace State

variable (s : State) (b : Byte)

theorem reg_finishReg_same (x : Reg) : (s.finishReg x b).reg x = b := by
  rw [finishReg_eq, jumpTo_reg, reg_setReg_same]

theorem toNat_pc_finishReg (x : Reg) : (s.finishReg x b).pc.toNat = (s.pc.toNat + 2) % 65536 := BitVec.toNat_add _ _

/-- A result leaves VF, unless it is written to VF (00_scope.md R12). -/
theorem reg_vf_finishReg {x : Reg} (hx : x ≠ 15) : (s.finishReg x b).reg 15 = s.reg 15 := by
  rw [finishReg_eq, jumpTo_reg, reg_setReg_ne s b hx.symm]

end State

/-- Settles O23: the instruction writes nn to V[x] and advances. -/
theorem loadByteSetsVx : Obligations.LoadByteSetsVx :=
  fun x nn s => ⟨decodeWord_encode (i := .ldImm x nn) rfl, _, rfl, s.reg_finishReg_same _ x, s.toNat_pc_finishReg _ x,
    s.reg_vf_finishReg _⟩

/-- Settles O24: the byte written is a sum of bytes, which is reduced mod 256. -/
theorem addByteWrapsWithoutFlag : Obligations.AddByteWrapsWithoutFlag :=
  fun x nn s => ⟨decodeWord_encode (i := .addImm x nn) rfl, _, rfl,
    (congrArg BitVec.toNat (s.reg_finishReg_same _ x)).trans (BitVec.toNat_add _ _), s.toNat_pc_finishReg _ x,
    s.reg_vf_finishReg _⟩

/-- A byte written bit by bit: each bit of V[x] is the bit written. -/
theorem State.getLsbD_reg_finishReg_same (s : State) (b : Byte) (x : Reg) (k : Nat) :
    ((s.finishReg x b).reg x).getLsbD k = b.getLsbD k := by
  rw [State.reg_finishReg_same]

/-- Settles O25: each of the instructions writes V[y], or a bitwise operation on V[x] and V[y], to V[x] and advances. -/
theorem copyAndBitwiseInstructions : Obligations.CopyAndBitwiseInstructions :=
  fun x y s => ⟨decodeWord_encode (i := .ldReg x y) rfl, decodeWord_encode (i := .orReg x y) rfl,
    decodeWord_encode (i := .andReg x y) rfl, decodeWord_encode (i := .xorReg x y) rfl,
    ⟨_, rfl, s.reg_finishReg_same _ x, s.toNat_pc_finishReg _ x, s.reg_vf_finishReg _⟩,
    ⟨_, rfl, fun k => (s.getLsbD_reg_finishReg_same _ x k).trans BitVec.getLsbD_or, s.toNat_pc_finishReg _ x,
      s.reg_vf_finishReg _⟩,
    ⟨_, rfl, fun k => (s.getLsbD_reg_finishReg_same _ x k).trans BitVec.getLsbD_and, s.toNat_pc_finishReg _ x,
      s.reg_vf_finishReg _⟩,
    ⟨_, rfl, fun k => (s.getLsbD_reg_finishReg_same _ x k).trans BitVec.getLsbD_xor, s.toNat_pc_finishReg _ x,
      s.reg_vf_finishReg _⟩⟩

/-! ### The flags as numbers -/

theorem toNat_flagByte_carryOut (a b : Byte) :
    (flagByte (carryOut a b)).toNat = if a.toNat + b.toNat > 255 then 1 else 0 := by
  simp only [toNat_flagByte, carryOut, decide_eq_true_eq]

theorem toNat_flagByte_noBorrow (a b : Byte) :
    (flagByte (noBorrow a b)).toNat = if a.toNat ≥ b.toNat then 1 else 0 := by
  simp only [toNat_flagByte, noBorrow, decide_eq_true_eq]

/-- A bit as a flag is the bit of that place of the number. -/
theorem toNat_flagByte_getLsbD (b : Byte) (k : Nat) : (flagByte (b.getLsbD k)).toNat = b.toNat / 2 ^ k % 2 := by
  rw [toNat_flagByte, BitVec.getLsbD, ← Nat.toNat_testBit]
  exact (Bool.cond_eq_ite _ _ _).symm

theorem toNat_flagByte_lowBit (b : Byte) : (flagByte (lowBit b)).toNat = b.toNat % 2 := by
  rw [lowBit, toNat_flagByte_getLsbD, pow_zero, Nat.div_one]

theorem toNat_flagByte_highBit (b : Byte) : (flagByte (highBit b)).toNat = b.toNat / 128 := by
  have hb := b.isLt
  rw [highBit, toNat_flagByte_getLsbD]
  omega

/-! ### A flag write before the result (R84) -/

namespace State

variable (s : State) (g : Bool) (b : Byte)

/-- An operand read after the flag write is the flag where it is VF, and what it was before where it is not. -/
theorem reg_setFlag (y : Reg) : (s.setFlag g).reg y = if y = 15 then flagByte g else s.reg y :=
  s.reg_setReg vf y (flagByte g)

/-- The flag stays in VF, unless the result overwrites it. -/
theorem reg_vf_setFlag_finishReg {x : Reg} (hx : x ≠ 15) : ((s.setFlag g).finishReg x b).reg 15 = flagByte g := by
  rw [reg_vf_finishReg _ _ hx, reg_setFlag, if_pos rfl]

end State

/-- Settles O26: the sum of the old operands is written to V[x] after the carry is written to VF. -/
theorem addWritesCarry : Obligations.AddWritesCarry := by
  refine fun x y s => ⟨decodeWord_encode (i := .addReg x y) rfl, _, rfl, ?_,
    fun hx => ?_, State.toNat_pc_finishReg _ _ x⟩
  · rw [State.reg_finishReg_same]
    exact BitVec.toNat_add _ _
  · rw [s.reg_vf_setFlag_finishReg _ _ hx]
    exact toNat_flagByte_carryOut _ _

/-! ### Subtraction -/

/-- A subtraction that writes the flag f first leaves in V[x] the difference of the minuend V[m] and the subtrahend V[d],
each the flag where it is VF, and the flag in VF unless x is VF (R92, R94). -/
theorem State.setFlag_finishReg_sub (s : State) {g : Bool} {f : Nat} (hf : (flagByte g).toNat = f) (x m d : Reg) {t : State}
    (ht : t = (s.setFlag g).finishReg x ((s.setFlag g).reg m - (s.setFlag g).reg d)) :
    (t.reg x).toNat = (256 + (if m = 15 then f else (s.reg m).toNat) - (if d = 15 then f else (s.reg d).toNat)) % 256 ∧
      (x ≠ 15 → (t.reg 15).toNat = f) := by
  subst ht
  have hread (y : Reg) : ((s.setFlag g).reg y).toNat = if y = 15 then f else (s.reg y).toNat := by
    rw [s.reg_setFlag, apply_ite BitVec.toNat, hf]
  have hd := ((s.setFlag g).reg d).isLt
  constructor
  · rw [State.reg_finishReg_same, BitVec.toNat_sub, ← hread m, ← hread d]
    omega
  · intro hx
    rw [s.reg_vf_setFlag_finishReg g _ hx, hf]

/-- Settles O27: V[x] is the minuend and V[y] the subtrahend, each the flag where it is VF. -/
theorem subtractWritesNoBorrow : Obligations.SubtractWritesNoBorrow := by
  intro x y s f hf
  obtain ⟨hdiff, hvf⟩ := s.setFlag_finishReg_sub ((toNat_flagByte_noBorrow (s.reg x) (s.reg y)).trans hf.symm) x x y rfl
  refine ⟨decodeWord_encode (i := .subReg x y) rfl, _, rfl, State.toNat_pc_finishReg _ _ x,
    fun hx hy => ⟨hdiff.trans ?_, hvf hx⟩, fun hx hy => ⟨hdiff.trans ?_, hvf hx⟩, fun hx hy => ?_, fun hx hy => ?_⟩
  · rw [if_neg hx, if_neg hy]
  · rw [if_neg hx, if_pos hy]
  · subst hx
    exact hdiff.trans (by rw [if_pos rfl, if_neg hy])
  · subst hx
    exact hdiff.trans (by rw [if_pos rfl, if_pos hy, Nat.add_sub_cancel])

/-- Settles O28: V[y] is the minuend and V[x] the subtrahend, each the flag where it is VF. -/
theorem reverseSubtractWritesNoBorrow : Obligations.ReverseSubtractWritesNoBorrow := by
  intro x y s f hf
  obtain ⟨hdiff, hvf⟩ := s.setFlag_finishReg_sub ((toNat_flagByte_noBorrow (s.reg y) (s.reg x)).trans hf.symm) x y x rfl
  refine ⟨decodeWord_encode (i := .subn x y) rfl, _, rfl, State.toNat_pc_finishReg _ _ x,
    fun hx hy => ⟨hdiff.trans ?_, hvf hx⟩, fun hx hy => ⟨hdiff.trans ?_, hvf hx⟩, fun hx hy => ?_, fun hx hy => ?_⟩
  · rw [if_neg hy, if_neg hx]
  · rw [if_pos hy, if_neg hx]
  · subst hx
    exact hdiff.trans (by rw [if_neg hy, if_pos rfl])
  · subst hx
    exact hdiff.trans (by rw [if_pos hy, if_pos rfl, Nat.add_sub_cancel])

/-! ### Shifts -/

theorem toNat_shiftRight_one (b : Byte) : (b >>> 1).toNat = b.toNat / 2 := by
  rw [BitVec.toNat_ushiftRight, Nat.shiftRight_eq_div_pow, pow_one]

theorem toNat_shiftLeft_one (b : Byte) : (b <<< 1).toNat = 2 * b.toNat % 256 := by
  rw [BitVec.toNat_shiftLeft, Nat.shiftLeft_eq, pow_one, Nat.mul_comm]

/-- Settles O29, by whether V[x] is VF: the byte shifted is V[x] where it is not, and the flag where it is. -/
theorem shiftsWriteTheBitShiftedOut : Obligations.ShiftsWriteTheBitShiftedOut := by
  refine fun x y s => ⟨decodeWord_encode (i := .shr x y) rfl, decodeWord_encode (i := .shl x y) rfl,
    ⟨_, rfl, State.toNat_pc_finishReg _ _ x, fun hx => ⟨?_, ?_⟩, fun hx => ?_⟩,
    ⟨_, rfl, State.toNat_pc_finishReg _ _ x, fun hx => ⟨?_, ?_⟩, fun hx => ?_⟩⟩
  · rw [State.reg_finishReg_same, toNat_shiftRight_one, s.reg_setFlag, if_neg hx]
  · rw [s.reg_vf_setFlag_finishReg _ _ hx, toNat_flagByte_lowBit]
  · subst hx
    rw [State.reg_finishReg_same, toNat_shiftRight_one, s.reg_setFlag, if_pos rfl, toNat_flagByte_lowBit]
    omega
  · rw [State.reg_finishReg_same, toNat_shiftLeft_one, s.reg_setFlag, if_neg hx]
  · rw [s.reg_vf_setFlag_finishReg _ _ hx, toNat_flagByte_highBit]
  · subst hx
    have hbyte := (s.reg 15).isLt
    rw [State.reg_finishReg_same, toNat_shiftLeft_one, s.reg_setFlag, if_pos rfl, toNat_flagByte_highBit]
    omega

/-! ### The random byte -/

theorem State.nextDraw_frame (s : State) : ChangesOnly {.randInput} s s.nextDraw := by
  intro p hp
  cases p with
  | randInput => exact absurd (Set.mem_singleton _) hp
  | _ => rfl

/-- Cxnn changes V[x], pc and the draw. -/
theorem execRnd_frame {x : Reg} {nn : Byte} {s t : State} (h : execRnd x nn s = .next t) :
    ChangesOnly {.reg x, .pc, .randInput} s t := by
  refine ((s.nextDraw_frame.trans (State.finishReg_frame _ x _)).of_next h).mono ?_
  rintro p (hdraw | hx | hpc)
  · exact .inr (.inr hdraw)
  · exact .inl hx
  · exact .inr (.inl hpc)

/-- Cxnn writes the draw under its mask, bit by bit, and the next draw is another (R36, R96). -/
theorem execRnd_effect {x : Reg} {nn : Byte} {s t : State} (h : execRnd x nn s = .next t) :
    (∀ k, (t.reg x).getLsbD k = (s.drawByte.getLsbD k && nn.getLsbD k)) ∧ t.pc.toNat = (s.pc.toNat + 2) % 65536 ∧
      t.randPort = none ∧ t.fresh = s.fresh + 1 := by
  cases h
  exact ⟨fun k => (State.getLsbD_reg_finishReg_same _ _ x k).trans BitVec.getLsbD_and, State.toNat_pc_finishReg _ _ x,
    rfl, rfl⟩

/-- Settles O30: a presented byte is the draw, and where none is presented the draw is the free byte. -/
theorem randomByteIsMasked : Obligations.RandomByteIsMasked := by
  refine fun x nn s => ⟨decodeWord_encode (i := .rnd x nn) rfl, fun r => ⟨_, rfl, execRnd_effect rfl⟩,
    s.drawByte, _, rfl, ?_⟩
  obtain ⟨hbits, hpc, hport, hfresh⟩ := execRnd_effect (x := x) (nn := nn) (s := s) rfl
  exact ⟨hbits, hpc, hport, hfresh, execRnd_frame rfl⟩

end Sys2Proof.Machine
end

section
/-! PROOFS. The index register and the memory instructions (42_index_memory.md): what I becomes, which bytes a store
leaves in memory, which bytes a load takes from it, and from the two that a load undoes what the registers went through
since the store (R104). -/
namespace Sys2Proof.Machine

theorem State.toNat_pc_advance (s : State) : s.advance.pc.toNat = (s.pc.toNat + 2) % 65536 := BitVec.toNat_add _ _

/-! ### The index register -/

/-- A byte added to I wraps at 2^16, not at the 12 bits of an address (R100). -/
theorem toNat_add_setWidth_byte (w : Word) (b : Byte) :
    (w + b.setWidth 16).toNat = (w.toNat + b.toNat) % 65536 := by
  have hb : b.toNat < 2 ^ 16 := b.isLt.trans (by decide)
  rw [BitVec.toNat_add, BitVec.toNat_setWidth, Nat.mod_eq_of_lt hb]

/-- The glyph address is at most 1275, so 16 bits hold it (R101). -/
theorem toNat_glyphAddr (b : Byte) : (glyphAddr b).toNat = b.toNat * 5 := by
  have hb := b.isLt
  rw [glyphAddr, BitVec.toNat_ofNat]
  omega

/-- Settles O31: the instruction sets I to the zero-extended nnn and advances. -/
theorem loadIndexSetsI : Obligations.LoadIndexSetsI :=
  fun nnn s => ⟨decodeWord_encode (i := .ldI nnn) rfl, _, rfl, toNat_zext16 nnn, s.toNat_pc_advance, rfl⟩

/-- Settles O32: the instruction sets I to a sum of 16-bit words and advances. -/
theorem addToIndexWrapsAt16Bits : Obligations.AddToIndexWrapsAt16Bits :=
  fun x s => ⟨decodeWord_encode (i := .addI x) rfl, _, rfl, toNat_add_setWidth_byte s.i (s.reg x), s.toNat_pc_advance,
    rfl⟩

/-- Settles O33: the instruction sets I to the glyph address of V[x] and advances. -/
theorem glyphAddressIsFiveTimesVx : Obligations.GlyphAddressIsFiveTimesVx :=
  fun x s => ⟨decodeWord_encode (i := .ldF x) rfl, _, rfl, toNat_glyphAddr (s.reg x), s.toNat_pc_advance, rfl⟩

/-! ### Stores -/

/-- Fx33 leaves the digit of weight 10^(2 - k) at I + k (R102). -/
theorem execLdB_memRead {x : Reg} {s t : State} (hs : Memory.wf s.mem = true) (h : execLdB x s = .next t) {k : Nat}
    (hk : k < 3) : (t.memRead (s.i.toNat + k)).toNat = (s.reg x).toNat / 10 ^ (2 - k) % 10 := by
  cases h
  have hlen := length_bcdDigits (s.reg x)
  rw [← toNat_getD_bcdDigits (s.reg x) hk]
  exact congrArg BitVec.toNat
    (State.memRead_memWriteList_inside hs (hlen.trans_le (by decide)) (hk.trans_eq hlen.symm) rfl)

/-- Fx55 leaves V[k] at I + k, past the end of memory too (R103). -/
theorem execStoreRegs_memRead {x : Reg} {s t : State} (hs : Memory.wf s.mem = true) (h : execStoreRegs x s = .next t)
    {k : Reg} (hk : k ≤ x) : t.memRead (s.i.toNat + k.val) = s.reg k := by
  cases h
  have hlen := length_map_regsUpTo s.reg x
  have hfits : x.val + 1 ≤ Config.memSize := x.isLt.trans (by decide)
  rw [← getD_map_regsUpTo s.reg hk]
  exact State.memRead_memWriteList_inside hs (hlen.trans_le hfits) ((Nat.lt_succ_of_le hk).trans_eq hlen.symm) rfl

theorem execStoreRegs_index {x : Reg} {s t : State} (h : execStoreRegs x s = .next t) : t.i = s.i := by
  cases h
  rfl

/-- Settles O34: the digits are those of weight 100, 10 and 1, and a byte has no digit above the hundreds. -/
theorem bcdStoresThreeDigits : Obligations.BcdStoresThreeDigits := by
  intro x s hs
  have hdigit {k : Nat} (hk : k < 3) := execLdB_memRead (x := x) hs rfl hk
  have hhundreds : (s.reg x).toNat / 100 % 10 = (s.reg x).toNat / 100 := by
    have hbyte := (s.reg x).isLt
    omega
  exact ⟨decodeWord_encode (i := .ldB x) rfl, _, rfl, (hdigit (k := 0) (by decide)).trans hhundreds,
    hdigit (k := 1) (by decide), (hdigit (k := 2) (by decide)).trans (by rw [Nat.sub_self, pow_zero, Nat.div_one]), rfl,
    s.toNat_pc_advance⟩

/-- Settles O35: the instruction leaves V[k] at I + k. -/
theorem storeRegistersFillsMemory : Obligations.StoreRegistersFillsMemory :=
  fun x s hs => ⟨decodeWord_encode (i := .storeRegs x) rfl, _, rfl, fun _ hk => execStoreRegs_memRead hs rfl hk, rfl,
    s.toNat_pc_advance⟩

/-! ### Loads -/

/-- Several register writes change the registers of the list. -/
theorem State.setRegs_frame (s : State) (rs : List Reg) (f : Reg → Byte) :
    ChangesOnly {p | ∃ r ∈ rs, p = .reg r} s (s.setRegs rs f) := by
  intro p hp
  cases p with
  | reg y => exact (s.reg_setRegs rs f y).trans (if_neg fun hy => hp ⟨y, hy, rfl⟩)
  | randInput => exact ⟨rfl, rfl⟩
  | _ => rfl

/-- Fx65 takes V[k] from I + k (R104). -/
theorem execLoadRegs_reg {x : Reg} {s t : State} (h : execLoadRegs x s = .next t) {k : Reg} (hk : k ≤ x) :
    t.reg k = s.memRead (s.i.toNat + k.val) := by
  cases h
  exact (s.reg_setRegs (regsUpTo x) _ k).trans (if_pos ((mem_regsUpTo x k).2 hk))

/-- Fx65 changes pc and the registers up to V[x]. -/
theorem execLoadRegs_frame {x : Reg} {s t : State} (h : execLoadRegs x s = .next t) :
    ChangesOnly {p | p = .pc ∨ ∃ k : Reg, p = .reg k ∧ k ≤ x} s t := by
  refine ChangesOnly.of_next (((s.setRegs_frame _ _).trans (State.jumpTo_frame _ _)).mono ?_) h
  rintro p (⟨r, hr, rfl⟩ | hpc)
  · exact .inr ⟨r, rfl, (mem_regsUpTo x r).1 hr⟩
  · exact .inl hpc

/-- Settles O36: the instruction writes the registers up to V[x] from memory and advances. -/
theorem loadRegistersReadsMemory : Obligations.LoadRegistersReadsMemory :=
  fun x s => ⟨decodeWord_encode (i := .loadRegs x) rfl, _, rfl, fun _ hk => execLoadRegs_reg rfl hk, s.toNat_pc_advance,
    execLoadRegs_frame rfl⟩

/-! ### A load after a store -/

/-- A load takes V[k] from I + k, where the store left it; what the registers held in between is not read (R104). -/
theorem reg_execLoadRegs_execStoreRegs {x : Reg} {s t u : State} {between : Vector Byte 16} (hs : Memory.wf s.mem = true)
    (hstore : execStoreRegs x s = .next t) (hload : execLoadRegs x { t with v := between } = .next u) {k : Reg}
    (hk : k ≤ x) : u.reg k = s.reg k :=
  calc u.reg k
    _ = t.memRead (t.i.toNat + k.val) := execLoadRegs_reg hload hk
    _ = t.memRead (s.i.toNat + k.val) := by rw [execStoreRegs_index hstore]
    _ = s.reg k := execStoreRegs_memRead hs hstore hk

/-- Settles O37: a store and a load restore each register up to V[x], and neither writes I. -/
theorem storeThenLoadRestoresRegisters : Obligations.StoreThenLoadRestoresRegisters :=
  fun x _ _ hs => ⟨_, _, rfl, rfl, fun _ hk => reg_execLoadRegs_execStoreRegs (x := x) hs rfl rfl hk, rfl⟩

end Sys2Proof.Machine
end

section
/-! PROOFS. The display instructions (43_display.md): what a clear and a draw leave in each cell, what a draw leaves in VF,
and from these that a second draw of the same sprite toggles the same cells back (R112). -/
namespace Sys2Proof.Machine

/-! ### Clear -/

/-- 00E0 leaves every cell unset (R106). -/
theorem execCls_cell {s t : State} (h : execCls s = .next t) (y : Fin 32) (x : Fin 64) : t.cell y x = false := by
  cases h
  simp [State.clearFrame, Frame.pixel]

/-- Settles O39: the instruction clears the frame and advances. -/
theorem clearUnsetsEveryCell : Obligations.ClearUnsetsEveryCell :=
  ⟨decodeWord_encode (i := .cls) rfl, fun s => ⟨_, rfl, execCls_cell rfl, s.toNat_pc_advance, rfl⟩⟩

/-! ### Draw -/

/-- The word of DRW with its low digit written last, as the pattern Dxyn has it (30_encoding.md R67). -/
theorem decodeWord_drw (x y : Reg) {n : Nat} (hn : n < 16) :
    decodeWord (BitVec.ofNat 16 (0xD000 + 0x100 * x.val + 0x10 * y.val + n)) = .ok (.drw x y n) := by
  have hword : 0xD000 + 0x100 * x.val + 0x10 * y.val + n = 0xD000 + n + 0x100 * x.val + 0x10 * y.val := by omega
  rw [hword]
  exact decodeWord_encode (i := .drw x y n) (decide_eq_true hn)

/-- A draw toggles the cells under a 1-bit of the sprite (R107). -/
theorem execDrw_cell {x y : Reg} {n : Nat} {s t : State} (h : execDrw x y n s = .next t) (yy : Fin 32) (xx : Fin 64) :
    t.cell yy xx = (s.cell yy xx ^^ spriteBit s x y n yy xx) := by
  cases h
  rw [← rowsBit_eq_spriteBit]
  exact (drawRows_spec _ _ _ _ _ _ _).1 yy xx

/-- The draw unit reports a collision when a 1-bit of the sprite meets a set cell (R110). -/
theorem drawSprite_collision_iff (s : State) (x y : Reg) (n : Nat) :
    (drawSprite s.mem s.i.toNat (s.startColumn x) (s.startRow y) n s.fb).2 = true ↔
      ∃ yy xx, spriteBit s x y n yy xx = true ∧ s.cell yy xx = true := by
  rw [drawSprite, (drawRows_spec _ _ _ _ _ _ _).2]
  simp only [Bool.false_eq_true, false_or, rowsBit_eq_spriteBit, State.cell]

/-- VF after a draw is the collision as a flag, and nothing of what VF held (R110, R111). -/
theorem execDrw_reg_vf {x y : Reg} {n : Nat} {s t : State} (h : execDrw x y n s = .next t) :
    t.reg 15 = flagByte (decide (∃ yy xx, spriteBit s x y n yy xx = true ∧ s.cell yy xx = true)) := by
  cases h
  have hcollision := Bool.eq_iff_iff.2 ((drawSprite_collision_iff s x y n).trans decide_eq_true_iff.symm)
  exact (State.reg_setReg_same _ vf _).trans (congrArg flagByte hcollision)

theorem flagByte_eq_one_iff {f : Bool} : flagByte f = 1 ↔ f = true := by
  cases f <;> decide

/-- Settles O40: the cells toggle under the sprite, and I is left. -/
theorem drawTogglesTheSpritesCells : Obligations.DrawTogglesTheSpritesCells :=
  fun x y _ _ hn => ⟨decodeWord_drw x y hn, _, rfl, execDrw_cell rfl, rfl, State.toNat_pc_advance _⟩

/-- Settles O41, by whether a 1-bit of the sprite meets a set cell. -/
theorem drawFlagsACollision : Obligations.DrawFlagsACollision := by
  refine fun x y n s _ => ⟨_, rfl, ?_⟩
  by_cases hmeet : ∃ yy xx, spriteBit s x y n yy xx = true ∧ s.cell yy xx = true
  · exact .inl ⟨hmeet, (execDrw_reg_vf rfl).trans (congrArg flagByte (decide_eq_true hmeet))⟩
  · exact .inr ⟨fun yy xx hbit => Bool.eq_false_iff.2 fun hset => hmeet ⟨yy, xx, hbit, hset⟩,
      (execDrw_reg_vf rfl).trans (congrArg flagByte (decide_eq_false hmeet))⟩

/-! ### A second draw -/

/-- A draw leaves the sprite where it was and as it was, when its position is not read from VF. -/
theorem spriteBit_of_execDrw {x y : Reg} {n : Nat} {s t : State} (h : execDrw x y n s = .next t) (hx : x ≠ 15)
    (hy : y ≠ 15) (yy : Fin 32) (xx : Fin 64) : spriteBit t x y n yy xx = spriteBit s x y n yy xx := by
  have hframe := execDrw_frame h
  have hcolumn : t.reg x = s.reg x := hframe (.reg x) (by simp [hx])
  have hrow : t.reg y = s.reg y := hframe (.reg y) (by simp [hy])
  have hindex : t.i = s.i := hframe .index (by simp)
  have hbytes (a : Nat) : t.memRead a = s.memRead a := hframe (.memByte a) (by simp)
  simp only [spriteBit, hcolumn, hrow, hindex, hbytes]

/-- Two draws toggle each cell under the sprite twice (R112). -/
theorem cell_execDrw_execDrw {x y : Reg} {n : Nat} {s t u : State} (hst : execDrw x y n s = .next t)
    (htu : execDrw x y n t = .next u) (hx : x ≠ 15) (hy : y ≠ 15) (yy : Fin 32) (xx : Fin 64) :
    u.cell yy xx = s.cell yy xx := by
  rw [execDrw_cell htu, execDrw_cell hst, spriteBit_of_execDrw hst hx hy, Bool.xor_assoc, Bool.xor_self, Bool.xor_false]

/-- The second draw's flag is the collision of the first draw's sprite with the cells that the first draw left (R112). -/
theorem reg_vf_execDrw_execDrw {x y : Reg} {n : Nat} {s t u : State} (hst : execDrw x y n s = .next t)
    (htu : execDrw x y n t = .next u) (hx : x ≠ 15) (hy : y ≠ 15) :
    u.reg 15 = 1 ↔ ∃ yy xx, spriteBit s x y n yy xx = true ∧ t.cell yy xx = true := by
  rw [execDrw_reg_vf htu, flagByte_eq_one_iff, decide_eq_true_iff]
  simp only [spriteBit_of_execDrw hst hx hy]

/-- Settles O42: the second draw puts the same bits on the same cells, and its flag is its own collision. -/
theorem doubleDrawRestoresTheFrame : Obligations.DoubleDrawRestoresTheFrame :=
  fun _ _ _ _ _ hx hy =>
    ⟨_, _, rfl, rfl, cell_execDrw_execDrw rfl rfl hx hy, reg_vf_execDrw_execDrw rfl rfl hx hy⟩

end Sys2Proof.Machine
end

section
/-! PROOFS. Keys and timers (44_keys_timers.md): how a key index is read, what the key wait does, what the timer
instructions copy, and what one tick and several ticks take from the timers. -/
namespace Sys2Proof.Machine

/-! ### Skips on a key -/

namespace State

variable {s : State} {b : Byte}

/-- An index that is the number of a key reads that key (R113). -/
theorem keyDown_of_eq {k : Fin 16} (hk : b.toNat = k.val) : s.keyDown b = s.keyAt k := by
  have hlt : b.toNat < 16 := hk.trans_lt k.isLt
  rw [keyDown, dif_pos hlt]
  exact congrArg s.keyAt (Fin.ext hk)

/-- Under KEY_INDEX_OOR = up, an index beyond the keys reads as a key that is up (R113). -/
theorem keyDown_of_up (hb : 16 ≤ b.toNat) (hp : s.params.keyIndexOor = .up) : s.keyDown b = false := by
  rw [keyDown, dif_neg (Nat.not_lt.2 hb), hp]

/-- Under KEY_INDEX_OOR = low_nibble, an index beyond the keys reads the key of its low digit (R113). -/
theorem keyDown_of_lowNibble {k : Fin 16} (hb : 16 ≤ b.toNat) (hp : s.params.keyIndexOor = .lowNibble)
    (hk : b.toNat % 16 = k.val) : s.keyDown b = s.keyAt k := by
  rw [keyDown, dif_neg (Nat.not_lt.2 hb), hp]
  exact congrArg s.keyAt (Fin.ext hk)

end State

/-- Settles O43, by how the index is read: each instruction skips on the key that it names. -/
theorem skipsOnAKey : Obligations.SkipsOnAKey := by
  intro x s down h
  have hdown : s.keyDown (s.reg x) = down := by
    obtain ⟨k, hk, rfl⟩ | ⟨hb, hp, rfl⟩ | ⟨hb, hp, k, hk, rfl⟩ := h
    · exact State.keyDown_of_eq hk
    · exact State.keyDown_of_up hb hp
    · exact State.keyDown_of_lowNibble hb hp hk
  refine ⟨decodeWord_encode (i := .skp x) rfl, decodeWord_encode (i := .sknp x) rfl, ⟨_, rfl, ?_⟩, ⟨_, rfl, ?_⟩⟩
  · rw [State.toNat_pc_skipIf, hdown]
  · simp only [State.toNat_pc_skipIf, hdown, Bool.not_eq_true', ← Bool.not_eq_true, ite_not]

/-! ### The key wait -/

theorem execLdVxK_of_some {x : Reg} {s : State} {k : Fin 16} (h : s.firstKeyDown = some k) :
    execLdVxK x s = .next (s.finishReg x (BitVec.ofNat 8 k.val)) := by
  rw [execLdVxK, h]
  rfl

theorem execLdVxK_of_none {x : Reg} {s : State} (h : s.firstKeyDown = none) : execLdVxK x s = .next s := by
  rw [execLdVxK, h]

/-- Settles O44, by what the key scan finds: the lowest key down, or none. -/
theorem keyWaitTakesTheLowestKey : Obligations.KeyWaitTakesTheLowestKey := by
  refine fun x s => ⟨decodeWord_encode (i := .ldVxK x) rfl, fun k hk hlow => ?_,
    fun hup => execLdVxK_of_none (State.firstKeyDown_eq_none.2 hup)⟩
  have hbyte : (BitVec.ofNat 8 k.val).toNat = k.val := Nat.mod_eq_of_lt (k.isLt.trans (by decide))
  exact ⟨_, execLdVxK_of_some (State.firstKeyDown_eq_some.2 ⟨hk, hlow⟩),
    (congrArg BitVec.toNat (s.reg_finishReg_same _ x)).trans hbyte, s.toNat_pc_finishReg _ x, s.reg_vf_finishReg _⟩

/-! ### The timer instructions -/

/-- st_active is high while ST is not 0 (R121). -/
theorem State.stActive_iff (s : State) : s.stActive = true ↔ s.st.toNat ≠ 0 := by
  rw [State.stActive, bne_iff_ne]
  exact (BitVec.toNat_inj (y := 0)).not.symm

theorem State.stActive_eq_decide (s : State) : s.stActive = decide (s.st.toNat ≠ 0) :=
  Bool.eq_iff_iff.2 (s.stActive_iff.trans decide_eq_true_iff.symm)

/-- Settles O45: each of the instructions copies one byte and advances. -/
theorem timerInstructionsCopyTheTimers : Obligations.TimerInstructionsCopyTheTimers :=
  fun x s => ⟨decodeWord_encode (i := .ldVxDT x) rfl, decodeWord_encode (i := .ldDTVx x) rfl,
    decodeWord_encode (i := .ldSTVx x) rfl,
    ⟨_, rfl, s.reg_finishReg_same _ x, rfl, s.toNat_pc_finishReg _ x, s.reg_vf_finishReg _⟩,
    ⟨_, rfl, rfl, State.toNat_pc_advance _, rfl⟩,
    ⟨_, rfl, rfl, State.stActive_iff _, rfl, State.toNat_pc_advance _, rfl⟩⟩

/-! ### Ticks -/

theorem toNat_dt_hostTick (s : State) : (hostTick s).dt.toNat = s.dt.toNat - 1 := toNat_countDown s.dt

theorem toNat_st_hostTick (s : State) : (hostTick s).st.toNat = s.st.toNat - 1 := toNat_countDown s.st

/-- A tick changes the two timers and the outputs (R120, R121). -/
theorem hostTick_frame (s : State) : ChangesOnly {.delayTimer, .soundTimer, .outputs} s (hostTick s) :=
  (((s.setDT_frame _).trans (State.setST_frame _ _)).trans (State.setOut_frame _ _)).mono (Set.union_assoc _ _ _).subset

/-- Several ticks take their number from each timer, down to 0 (R120). -/
theorem toNat_timers_tickTimes (n : Nat) (s : State) :
    (tickTimes n s).dt.toNat = s.dt.toNat - n ∧ (tickTimes n s).st.toNat = s.st.toNat - n := by
  induction n generalizing s with
  | zero => exact ⟨rfl, rfl⟩
  | succ n ih =>
    obtain ⟨hdt, hst⟩ := ih (hostTick s)
    rw [toNat_dt_hostTick, Nat.sub_sub, Nat.add_comm] at hdt
    rw [toNat_st_hostTick, Nat.sub_sub, Nat.add_comm] at hst
    exact ⟨hdt, hst⟩

/-- Settles O58: tone_trigger is st_active as the tick found it, and the ticks are counted by induction. -/
theorem ticksCountDownToZero : Obligations.TicksCountDownToZero :=
  ⟨fun s => ⟨_, rfl, s.stActive_iff, rfl, hostTick_frame s⟩, toNat_timers_tickTimes⟩

end Sys2Proof.Machine
end

section
/-! PROOFS. One clock cycle (60_exceptions.md R126, R131, R135, R138): what a cycle does in each of its cases, why a step
that completes in a cycle is the step of the state before it, and from these the frame and the outputs of each case. -/
namespace Sys2Proof.Machine

/-! ### The cases of a cycle -/

section
variable {p : Pins} {s : State}

theorem cycle_of_reset (hrst : p.rst = true) : cycle p s = .next (hostReset s.beginCycle) := by
  rw [cycle, if_pos hrst]

theorem cycle_of_busy (hrst : p.rst = false) (hbusy : s.out.busy = true) : cycle p s = busyCycle p s.beginCycle := by
  simp only [cycle, hrst, hbusy, Bool.false_eq_true, if_false, if_true]

theorem cycle_of_idle (hrst : p.rst = false) (hbusy : s.out.busy = false) :
    cycle p s = .next (idleCycle p s.beginCycle) := by
  simp only [cycle, hrst, hbusy, Bool.false_eq_true, if_false]

theorem busyCycle_of_unfinished (hfinish : p.finish = false) : busyCycle p s = .next s := by
  simp only [busyCycle, hfinish, Bool.false_eq_true, if_false]

theorem busyCycle_of_next (hfinish : p.finish = true) {t : State} (h : step (s.setRandPort (some p.randByte)) = .next t) :
    busyCycle p s = .next (t.endStep.setRandPort none) := by
  rw [busyCycle, if_pos hfinish, h]

theorem busyCycle_of_fault (hfinish : p.finish = true) {r : Fault}
    (h : step (s.setRandPort (some p.randByte)) = .fault r) : busyCycle p s = .fault r := by
  rw [busyCycle, if_pos hfinish, h]

theorem idleCycle_of_load (hld : p.ldWe = true) : idleCycle p s = hostLoad p.ldOffset p.ldData s := by
  rw [idleCycle, if_pos hld]

theorem idleCycle_of_keys (hld : p.ldWe = false) (hkeys : p.keysWe = true) : idleCycle p s = hostKeys p.keysD s := by
  simp only [idleCycle, hld, hkeys, Bool.false_eq_true, if_false, if_true]

theorem idleCycle_of_tick (hld : p.ldWe = false) (hkeys : p.keysWe = false) (htick : p.tick = true) :
    idleCycle p s = hostTick s := by
  simp only [idleCycle, hld, hkeys, htick, Bool.false_eq_true, if_false, if_true]

/-- With no other request, busy becomes whether a step is requested. -/
theorem idleCycle_of_stepReq (hld : p.ldWe = false) (hkeys : p.keysWe = false) (htick : p.tick = false)
    (hbusy : s.out.busy = false) : idleCycle p s = s.setOut { s.out with busy := p.stepReq } := by
  simp only [idleCycle, hld, hkeys, htick, Bool.false_eq_true, if_false]
  cases p.stepReq with
  | true => rfl
  | false => rw [if_neg Bool.false_ne_true, ← hbusy]; rfl

end

/-! ### A step in the cycle in which it completes -/

/-- What a new cycle changes of the state that a step reads: step_done goes low, and free values are new. -/
def State.newCycle (s : State) : State := { s with out := { s.out with stepDone := false }, fresh := s.fresh + 1 }

/-- The outcome in the new cycle is the outcome without it, but for what the new cycle changes. -/
abbrev SameUpToCycle : Host.Outcome State Fault Refusal → Host.Outcome State Fault Refusal → Prop :=
  SameOutcome fun u u' => u' = u.newCycle

theorem State.skipIf_newCycle (s : State) (c : Bool) : s.newCycle.skipIf c = (s.skipIf c).newCycle := by
  rw [skipIf_eq, skipIf_eq]
  rfl

theorem execCall_newCycle (nnn : Addr) (s : State) : SameUpToCycle (execCall nnn s) (execCall nnn s.newCycle) := by
  by_cases hs : s.sp = 15
  · rw [execCall_of_full nnn hs, execCall_of_full nnn (s := s.newCycle) hs]
    exact .next rfl
  · rw [execCall_of_not_full nnn hs, execCall_of_not_full nnn (s := s.newCycle) hs, State.push_of_not_full _ hs,
      State.push_of_not_full (s := s.newCycle) _ hs]
    exact .next rfl

theorem execRet_newCycle (s : State) : SameUpToCycle (execRet s) (execRet s.newCycle) := by
  by_cases hs : s.sp = 0
  · cases hp : s.params.popEmpty with
    | drop =>
      rw [execRet_of_drop hs hp, execRet_of_drop (s := s.newCycle) hs hp]
      exact .next rfl
    | fault =>
      rw [execRet_of_fault hs hp, execRet_of_fault (s := s.newCycle) hs hp]
      exact .fault _
  · rw [execRet_of_not_empty hs, execRet_of_not_empty (s := s.newCycle) hs, State.pop_of_not_empty hs,
      State.pop_of_not_empty (s := s.newCycle) hs]
    exact .next rfl

theorem execLdVxK_newCycle (x : Reg) (s : State) : SameUpToCycle (execLdVxK x s) (execLdVxK x s.newCycle) := by
  cases hscan : s.firstKeyDown with
  | some k =>
    rw [execLdVxK_of_some hscan, execLdVxK_of_some (s := s.newCycle) hscan]
    exact .next rfl
  | none =>
    rw [execLdVxK_of_none hscan, execLdVxK_of_none (s := s.newCycle) hscan]
    exact .next rfl

/-- A presented byte is the draw, whatever the index of the free values is (R36). -/
theorem State.drawByte_of_some {s : State} {b : Byte} (hb : s.randPort = some b) : s.drawByte = b := by
  rw [drawByte, hb]

theorem execRnd_newCycle (x : Reg) (nn : Byte) {s : State} {b : Byte} (hb : s.randPort = some b) :
    SameUpToCycle (execRnd x nn s) (execRnd x nn s.newCycle) := by
  rw [execRnd, execRnd, State.drawByte_of_some hb, State.drawByte_of_some (s := s.newCycle) hb]
  exact .next rfl

/-- No instruction reads step_done, nor the index of the free values when a random byte is presented. -/
theorem exec_newCycle (i : Instr) {s : State} {b : Byte} (hb : s.randPort = some b) :
    SameUpToCycle (exec i s) (exec i s.newCycle) := by
  cases i with
  | call nnn => exact execCall_newCycle nnn s
  | ret => exact execRet_newCycle s
  | ldVxK x => exact execLdVxK_newCycle x s
  | rnd x nn => exact execRnd_newCycle x nn hb
  | seImm _ _ | sneImm _ _ | seReg _ _ | sneReg _ _ | skp _ | sknp _ => exact .next (s.skipIf_newCycle _)
  | _ => exact .next rfl

/-- A step in a new cycle does what it does from the state before that cycle, under the byte presented in the cycle. -/
theorem step_beginCycle (s : State) (b : Byte) :
    SameUpToCycle (step (s.setRandPort (some b))) (step (s.beginCycle.setRandPort (some b))) := by
  have hfetch : (s.beginCycle.setRandPort (some b)).fetchWord = (s.setRandPort (some b)).fetchWord := rfl
  cases hd : decodeWord (s.setRandPort (some b)).fetchWord with
  | ok i =>
    rw [step_of_decoded hd, step_of_decoded (hfetch ▸ hd)]
    exact exec_newCycle i (s := (s.setRandPort (some b)).clearPulses) rfl
  | error e =>
    rw [step_of_undecoded hd, step_of_undecoded (hfetch ▸ hd)]
    exact .next rfl

/-- A step that completes leaves what the whole step leaves, with the outputs of its end (R135). -/
theorem cycle_of_step_next {p : Pins} {s u : State} (hrst : p.rst = false) (hbusy : s.out.busy = true)
    (hfinish : p.finish = true) (hu : step (s.setRandPort (some p.randByte)) = .next u) :
    cycle p s = .next (u.newCycle.endStep.setRandPort none) := by
  obtain ⟨_, hstep, rfl⟩ := (step_beginCycle s p.randByte).exists_next hu
  rw [cycle_of_busy hrst hbusy, busyCycle_of_next hfinish hstep]

/-- A step that stops, stops the cycle (log 15). -/
theorem cycle_of_step_fault {p : Pins} {s : State} {r : Fault} (hrst : p.rst = false) (hbusy : s.out.busy = true)
    (hfinish : p.finish = true) (hr : step (s.setRandPort (some p.randByte)) = .fault r) : cycle p s = .fault r := by
  rw [cycle_of_busy hrst hbusy, busyCycle_of_fault hfinish ((step_beginCycle s p.randByte).eq_fault hr)]

/-! ### Frames and outputs -/

/-- States that differ in the outputs and the random input. -/
theorem State.outputs_randInput_frame (s : State) (o : Outputs) (b : Option Byte) (n : Nat) :
    ChangesOnly {.outputs, .randInput} s { s with out := o, randPort := b, fresh := n } := by
  intro p hp
  cases p with
  | outputs => exact absurd (.inl rfl) hp
  | randInput => exact absurd (.inr rfl) hp
  | _ => rfl

/-- A reset forgets all of the state but the parameters and the index of the free values. -/
theorem hostReset_beginCycle_frame (s : State) : ChangesOnly {.randInput} (hostReset s) (hostReset s.beginCycle) :=
  (hostReset s).nextDraw_frame

/-- A byte in the ROM window is written, and the pulses go low (R132). -/
theorem hostLoad_of_lt {offset : Word} (b : Byte) (s : State) (h : offset.toNat < 3584) :
    hostLoad offset b s = s.clearPulses.memWrite (0x200 + offset.toNat) b := if_pos h

/-- A byte beyond the ROM window is dropped, and rom_truncated is raised (R132). -/
theorem hostLoad_of_le {offset : Word} (b : Byte) (s : State) (h : 3584 ≤ offset.toNat) :
    hostLoad offset b s = s.setOut { s.out.quiet with romTruncated := true } := if_neg (Nat.not_lt.2 h)

/-- A load in a new cycle is the load, with that cycle's outputs and no random byte. -/
theorem hostLoad_beginCycle (offset : Word) (b : Byte) (s : State) :
    hostLoad offset b s.beginCycle =
      { hostLoad offset b s with
        out := { s.out.quiet with
          stepDone := false, romTruncated := s.out.romTruncated || decide (3584 ≤ offset.toNat) }
        randPort := none, fresh := s.fresh + 1 } := by
  by_cases h : offset.toNat < 3584
  · rw [hostLoad_of_lt b _ h, hostLoad_of_lt b _ h, decide_eq_false (Nat.not_le.2 h), Bool.or_false]
    rfl
  · have hle := Nat.not_lt.1 h
    rw [hostLoad_of_le b _ hle, hostLoad_of_le b _ hle, decide_eq_true hle, Bool.or_true]
    rfl

theorem idleCycle_randPort (p : Pins) (s : State) : (idleCycle p s.beginCycle).randPort = none := by
  unfold idleCycle
  split_ifs
  · rw [hostLoad_beginCycle]
  all_goals rfl

/-- No random byte is kept for a later cycle (log 12). -/
theorem cycle_randPort {p : Pins} {s t : State} (h : cycle p s = .next t) : t.randPort = none := by
  cases hrst : p.rst with
  | true =>
    cases (cycle_of_reset hrst).symm.trans h
    rfl
  | false =>
    cases hbusy : s.out.busy with
    | true =>
      rw [cycle_of_busy hrst hbusy] at h
      cases hfinish : p.finish with
      | false =>
        cases (busyCycle_of_unfinished hfinish).symm.trans h
        rfl
      | true =>
        obtain ⟨u, hu⟩ | ⟨-, -, -, hr⟩ := stepStopsOnlyOnReturnUnderflow (s.beginCycle.setRandPort (some p.randByte))
        · cases (busyCycle_of_next hfinish hu).symm.trans h
          rfl
        · cases (busyCycle_of_fault hfinish hr).symm.trans h
    | false =>
      cases (cycle_of_idle hrst hbusy).symm.trans h
      exact idleCycle_randPort p s

/-! ### The obligation -/

/-- Settles O60, by the cases of a cycle. -/
theorem oneHostRequestPerCycle : Obligations.OneHostRequestPerCycle := by
  refine fun p s => ⟨fun t => cycle_randPort, fun hrst => ⟨_, cycle_of_reset hrst, hostReset_beginCycle_frame s⟩,
    fun hrst hbusy hfinish => ?_, fun hrst hbusy hfinish u hu => ?_, fun hrst hbusy hfinish r => ?_,
    fun hrst hbusy => ?_⟩
  · exact ⟨_, (cycle_of_busy hrst hbusy).trans (busyCycle_of_unfinished hfinish), rfl, s.outputs_randInput_frame _ _ _⟩
  · exact ⟨_, cycle_of_step_next hrst hbusy hfinish hu, rfl, u.outputs_randInput_frame _ _ _⟩
  · exact cycle_of_step_fault hrst hbusy hfinish
  · refine ⟨_, cycle_of_idle hrst hbusy, fun hld => ?_, fun hld hkeys => ?_, fun hld hkeys htick => ?_,
      fun hld hkeys htick => ?_⟩
    · rw [idleCycle_of_load hld, hostLoad_beginCycle]
      exact ⟨State.outputs_randInput_frame _ _ _ _, rfl⟩
    · rw [idleCycle_of_keys hld hkeys]
      exact ⟨State.outputs_randInput_frame _ _ _ _, rfl⟩
    · rw [idleCycle_of_tick hld hkeys htick, ← s.stActive_eq_decide]
      exact ⟨State.outputs_randInput_frame _ _ _ _, rfl⟩
    · rw [idleCycle_of_stepReq (s := s.beginCycle) hld hkeys htick hbusy]
      exact ⟨s.outputs_randInput_frame _ _ _, rfl⟩

end Sys2Proof.Machine
end

section
/-! PROOFS. The host's reset, ROM load, key write and frame read (60_exceptions.md R131-R133, R136): what each writes or
shows, and what it leaves. -/
namespace Sys2Proof.Machine

/-! ### Reset -/

/-- After reset the bytes below 80 are those of the machine's FONT (20_memory.md R49). -/
theorem memRead_hostReset_font (s : State) {a : Nat} (h : a < 80) : (hostReset s).memRead a = s.params.font[a] := by
  have hlen : a < s.params.font.toList.length := by rwa [Vector.length_toList]
  have hread : (hostReset s).memRead a = s.params.font.toList.getD a 0 :=
    State.memRead_memWriteList_inside rfl (by rw [Vector.length_toList]; decide) hlen (by rw [Nat.zero_add])
  rw [hread, List.getD_eq_getElem _ _ hlen, Vector.getElem_toList]

/-- After reset the bytes beyond FONT are 0 (R48). -/
theorem memRead_hostReset_zero (s : State) {a : Nat} (hlow : 80 ≤ a) (hhigh : a < 4096) : (hostReset s).memRead a = 0 := by
  have ha : maskAddr a = a := Nat.mod_eq_of_lt hhigh
  have hbeyond : ∀ k < s.params.font.toList.length, maskAddr a ≠ maskAddr (0 + k) := by
    intro k hk
    rw [Vector.length_toList] at hk
    rw [ha, maskAddr, Config.memSize]
    omega
  have hread : (hostReset s).memRead a = Memory.initial (maskAddr a) :=
    State.memRead_memWriteList_outside rfl (by rw [Vector.length_toList]; decide) hbeyond
  rw [hread, ha]
  exact List.getD_eq_default _ _ hlow

/-- The state after reset is reset's own result: writing the default FONT lists no byte, as an unlisted address already reads
as one (log 1). -/
theorem hostReset_reset : hostReset State.reset = State.reset := by decide

/-- Settles O53: memory holds FONT and zeros, and every other part is that of the state after reset. -/
theorem resetEstablishesEveryValue : Obligations.ResetEstablishesEveryValue := by
  refine ⟨hostReset_reset, rfl, fun s => ⟨hostReset s, rfl, fun x => ?_, rfl, rfl, rfl, fun k => ?_, rfl, rfl,
    fun _ => memRead_hostReset_font s, fun _ => memRead_hostReset_zero s, fun y x => ?_, fun k => ?_, rfl, rfl⟩⟩
  · exact Vector.getElem_replicate x.isLt
  · exact Vector.getElem_replicate k.isLt
  · exact (congrArg (BitVec.getLsbD · x.val) (Vector.getElem_replicate y.isLt)).trans BitVec.getLsbD_zero
  · exact BitVec.getLsbD_zero

/-! ### ROM load and key write -/

/-- A byte written changes the byte of its reduced address alone (20_memory.md R47). -/
theorem State.memWrite_frame {s : State} (hs : Memory.wf s.mem = true) (n : Nat) (b : Byte) :
    ChangesOnly {p | ∃ a, p = .memByte a ∧ maskAddr a = maskAddr n} s (s.memWrite n b) := by
  intro p hp
  cases p with
  | memByte a => exact (memRead_memWrite hs n a b).trans (if_neg fun ha => hp ⟨a, rfl, ha⟩)
  | randInput => exact ⟨rfl, rfl⟩
  | _ => rfl

theorem State.setKey_frame (s : State) (d : BitVec 16) : ChangesOnly {p | ∃ k, p = .key k} s (s.setKey d) := by
  intro p hp
  cases p with
  | key k => exact absurd ⟨k, rfl⟩ hp
  | randInput => exact ⟨rfl, rfl⟩
  | _ => rfl

/-- An address of the ROM window is inside memory, so no access reduces it (R132). -/
theorem maskAddr_romWindow {offset : Nat} (h : offset < 3584) : maskAddr (0x200 + offset) = 0x200 + offset :=
  Nat.mod_eq_of_lt (by rw [Config.memSize]; omega)

/-- Settles O55, by whether the offset lies in the ROM window. -/
theorem romLoadWritesItsWindow : Obligations.RomLoadWritesItsWindow := by
  refine fun offset b s hs => ⟨_, rfl, fun h => ?_, fun h => ?_⟩
  · rw [hostLoad_of_lt b s h]
    refine ⟨(State.memRead_memWrite (s := s.clearPulses) hs _ _ b).trans (if_pos rfl), rfl, ?_⟩
    refine ((s.setOut_frame _).trans (State.memWrite_frame (s := s.clearPulses) hs _ b)).mono ?_
    rintro p (hout | ⟨a, rfl, ha⟩)
    · exact .inl hout
    · exact .inr ⟨a, rfl, ha.trans (maskAddr_romWindow h)⟩
  · rw [hostLoad_of_le b s h]
    exact ⟨rfl, s.setOut_frame _⟩

/-- Settles O57: a key write quiets the outputs and then sets the latch as a whole. -/
theorem keyWriteReplacesTheLatch : Obligations.KeyWriteReplacesTheLatch :=
  fun d s => ⟨_, rfl, fun _ => rfl, rfl, (s.setOut_frame _).trans (State.setKey_frame _ d)⟩

/-! ### Frame read -/

/-- Between steps a frame read shows the rows of FB (R136). -/
theorem State.getD_shownRows {s : State} (h : s.out.busy = false) (y : Fin 32) : s.shownRows.getD y.val 0 = s.fb[y] := by
  have hlen : y.val < s.fb.toList.length := by rw [Vector.length_toList]; exact y.isLt
  rw [shownRows, h, if_neg Bool.false_ne_true, List.getD_eq_getElem _ _ hlen, Vector.getElem_toList]
  rfl

/-- Bit y * 64 + x of the rows packed in one number is bit x of row y. -/
theorem testBit_packRows (rows : List PixelRow) (y : Nat) {x : Nat} (hx : x < 64) :
    (packRows rows).testBit (y * 64 + x) = (rows.getD y 0).getLsbD x := by
  induction rows generalizing y with
  | nil => simp [packRows]
  | cons r rows ih =>
    rw [packRows, Config.fbWidth, Nat.add_comm, Nat.testBit_two_pow_mul_add _ r.isLt]
    cases y with
    | zero => rw [Nat.zero_mul, Nat.zero_add, if_pos hx]; rfl
    | succ y =>
      rw [if_neg (by omega), show (y + 1) * 64 + x - 64 = y * 64 + x by omega, ih]
      rfl

/-- Settles O59: the rows shown are those of FB, alone for h_pixel and side by side for pixels. -/
theorem frameReadShowsTheCells : Obligations.FrameReadShowsTheCells := by
  intro s h y x
  constructor
  · rw [State.hPixel, State.getD_shownRows h]
    rfl
  · have hbit : y.val * 64 + x.val < 2048 := by omega
    rw [State.pixels, BitVec.getLsbD_ofNat, decide_eq_true hbit, Bool.true_and, testBit_packRows _ _ x.isLt,
      State.getD_shownRows h]
    rfl

end Sys2Proof.Machine
end

section
/-! PROOFS. The invariant outside the step (60_exceptions.md R130, R138): a reset establishes it, every other host operation
keeps it, and so does every case of a clock cycle. -/
namespace Sys2Proof.Machine

/-! ### The host operations -/

theorem stateInv_hostReset (s : State) : StateInv (hostReset s) := ⟨State.memWriteList_wf rfl _ _, rfl, Nat.zero_le 1⟩

/-- The invariant speaks of memory, the stack and the diagnostics alone. -/
theorem StateInv.of_eq {s t : State} (hs : StateInv s) (hmem : t.mem = s.mem) (hstack : t.stack = s.stack)
    (hdiag : t.out.diagCount ≤ 1) : StateInv t := by
  obtain ⟨hwf, hzero, -⟩ := hs
  refine ⟨by rwa [hmem], ?_, hdiag⟩
  rw [State.stackAt, hstack]
  exact hzero

theorem hostLoad_keeps_inv {s : State} (hs : StateInv s) (offset : Word) (b : Byte) : StateInv (hostLoad offset b s) := by
  obtain ⟨hwf, hzero, -⟩ := id hs
  by_cases h : offset.toNat < 3584
  · rw [hostLoad_of_lt b s h]
    exact ⟨State.memWrite_wf (s := s.clearPulses) hwf _ b, hzero, Nat.zero_le 1⟩
  · rw [hostLoad_of_le b s (Nat.not_lt.1 h)]
    exact hs.of_eq rfl rfl (Nat.zero_le 1)

theorem hostKeys_keeps_inv {s : State} (hs : StateInv s) (d : BitVec 16) : StateInv (hostKeys d s) :=
  hs.of_eq rfl rfl (Nat.zero_le 1)

theorem hostTick_keeps_inv {s : State} (hs : StateInv s) : StateInv (hostTick s) := hs.of_eq rfl rfl (Nat.zero_le 1)

theorem hostApply_keeps_inv {op : HostOp} {s t : State} (hs : StateInv s) (h : hostApply op s = .next t) : StateInv t := by
  cases op with
  | step => exact stepKeepsInvariant s t hs h
  | reset => cases h; exact stateInv_hostReset s
  | load offset b => cases h; exact hostLoad_keeps_inv hs offset b
  | keys d => cases h; exact hostKeys_keeps_inv hs d
  | tick => cases h; exact hostTick_keeps_inv hs
  | frameRead => cases h; exact hs
  | soundRead => cases h; exact hs

/-! ### The clock cycle -/

theorem idleCycle_keeps_inv {s : State} (hs : StateInv s) (p : Pins) : StateInv (idleCycle p s) := by
  unfold idleCycle
  split_ifs
  · exact hostLoad_keeps_inv hs p.ldOffset p.ldData
  · exact hostKeys_keeps_inv hs p.keysD
  · exact hostTick_keeps_inv hs
  · exact hs
  · exact hs

/-- A cycle with a step in progress leaves the state, or ends the whole step (R135, log 15). -/
theorem busyCycle_cases {p : Pins} {s t : State} (h : busyCycle p s = .next t) :
    t = s ∨ ∃ u, step (s.setRandPort (some p.randByte)) = .next u ∧ t = u.endStep.setRandPort none := by
  cases hfinish : p.finish with
  | false =>
    cases (busyCycle_of_unfinished hfinish).symm.trans h
    exact .inl rfl
  | true =>
    obtain ⟨u, hu⟩ | ⟨-, -, -, hr⟩ := stepStopsOnlyOnReturnUnderflow (s.setRandPort (some p.randByte))
    · cases (busyCycle_of_next hfinish hu).symm.trans h
      exact .inr ⟨u, hu, rfl⟩
    · cases (busyCycle_of_fault hfinish hr).symm.trans h

/-- The end of a step raises no diagnostic, so the invariant is that of the step. -/
theorem busyCycle_keeps_inv {p : Pins} {s t : State} (hs : StateInv s) (h : busyCycle p s = .next t) : StateInv t := by
  obtain rfl | ⟨u, hu, rfl⟩ := busyCycle_cases h
  · exact hs
  · exact stepKeepsInvariant (s.setRandPort (some p.randByte)) u hs hu

theorem cycle_keeps_inv {p : Pins} {s t : State} (hs : StateInv s) (h : cycle p s = .next t) : StateInv t := by
  have hbegin : StateInv s.beginCycle := hs.of_eq rfl rfl (Nat.zero_le 1)
  cases hrst : p.rst with
  | true =>
    cases (cycle_of_reset hrst).symm.trans h
    exact stateInv_hostReset s.beginCycle
  | false =>
    cases hbusy : s.out.busy with
    | true => exact busyCycle_keeps_inv hbegin ((cycle_of_busy hrst hbusy).symm.trans h)
    | false =>
      cases (cycle_of_idle hrst hbusy).symm.trans h
      exact idleCycle_keeps_inv hbegin p

/-! ### The obligation -/

/-- Settles O11: a reset establishes the invariant, every other operation and every cycle keeps it. -/
theorem hostOperationsKeepInvariant : Obligations.HostOperationsKeepInvariant :=
  ⟨fun _ _ _ => hostApply_keeps_inv, fun _ _ _ => cycle_keeps_inv⟩

end Sys2Proof.Machine
end

section
/-! PROOFS. Reset, construction and the ends of a run (70_reset_and_hazards.md R144-R146, R152): the invariant at reset, the
entry point, what a ROM leaves in memory and in the outputs, and the self-jump. -/
namespace Sys2Proof.Machine

/-! ### Reset and the entry point -/

/-- Settles O10: the state after reset is what a reset makes of it, and a reset establishes the invariant. -/
theorem resetMeetsInvariant : Obligations.ResetMeetsInvariant := by
  rw [Obligations.ResetMeetsInvariant, ← hostReset_reset]
  exact stateInv_hostReset State.reset

/-- Settles O54: the fetch is big-endian at pc, and neither 0x200 nor 0x201 is reduced. -/
theorem entryPointIs0x200 : Obligations.EntryPointIs0x200 :=
  ⟨rfl, fun m => fetchIsBigEndian { State.reset with mem := m }⟩

/-! ### Construction -/

/-- A list of bytes written changes the bytes of its reduced addresses (20_memory.md R46). -/
theorem State.memWriteList_frame_at {s : State} (hs : Memory.wf s.mem = true) (n : Nat) {bs : List Byte}
    (hl : bs.length ≤ Config.memSize) :
    ChangesOnly {p | ∃ a k, p = .memByte a ∧ k < bs.length ∧ maskAddr a = maskAddr (n + k)} s (s.memWriteList n bs) := by
  intro p hp
  cases p with
  | memByte a => exact memRead_memWriteList_outside hs hl fun k hk ha => hp ⟨a, k, rfl, hk, ha⟩
  | randInput => exact ⟨rfl, rfl⟩
  | _ => rfl

/-- The outputs after reset and loads of the offsets below n: rom_truncated tells whether one lay beyond the ROM window
(60_exceptions.md R132). -/
def romOutputs (n : Nat) : Outputs := { Outputs.low with romTruncated := decide (3584 < n) }

/-- One load writes its byte when the window has room for it, and the outputs become those of one more load (R132). -/
theorem romByte_eq {offset : Nat} (b : Byte) {s : State} (hout : s.out = romOutputs offset) :
    romByte offset b s =
      (if offset < 3584 then s.memWrite (0x200 + offset) b else s).setOut (romOutputs (offset + 1)) := by
  by_cases h : offset < 3584
  · have hlow : romOutputs (offset + 1) = s.out.quiet := by
      rw [hout, romOutputs, romOutputs, decide_eq_false (by omega), decide_eq_false (by omega)]
      rfl
    rw [if_pos h, hlow]
    exact if_pos h
  · have htrunc : romOutputs (offset + 1) = { s.out.quiet with romTruncated := true } := by
      rw [hout, romOutputs, decide_eq_true (by omega)]
      rfl
    rw [if_neg h, htrunc]
    exact if_neg h

/-- The loads of a ROM are one write of the bytes for which the window has room (R132, R146). -/
theorem loadRom_eq (rom : List Byte) (offset : Nat) {s : State} (hout : s.out = romOutputs offset) :
    loadRom offset rom s =
      (s.memWriteList (0x200 + offset) (rom.take (3584 - offset))).setOut (romOutputs (offset + rom.length)) := by
  induction rom generalizing offset s with
  | nil =>
    rw [List.take_nil, List.length_nil, Nat.add_zero, ← hout]
    rfl
  | cons b bs ih =>
    rw [loadRom, romByte_eq b hout, ih (offset + 1) rfl, List.length_cons, Nat.add_right_comm, ← Nat.add_assoc]
    by_cases h : offset < 3584
    · rw [if_pos h, show 3584 - offset = 3584 - (offset + 1) + 1 by omega, List.take_succ_cons]
      rfl
    · rw [if_neg h, show 3584 - offset = 0 by omega, show 3584 - (offset + 1) = 0 by omega]
      rfl

theorem construct_eq (rom : List Byte) (s : State) :
    construct rom s = ((hostReset s).memWriteList 0x200 (rom.take 3584)).setOut (romOutputs rom.length) := by
  have h := loadRom_eq rom 0 (s := hostReset s) rfl
  rwa [Nat.zero_add] at h

/-- Settles O56: construction is a reset and one write of the ROM's first 3584 bytes at 0x200. -/
theorem constructionHoldsTheRom : Obligations.ConstructionHoldsTheRom := by
  intro rom s
  obtain ⟨hwf, -, -⟩ := stateInv_hostReset s
  have hlen : (rom.take 3584).length ≤ Config.memSize := (List.length_take_le 3584 rom).trans (by decide)
  rw [construct_eq]
  refine ⟨fun k hk hroom => ?_, rfl, ?_⟩
  · have hloaded : k < (rom.take 3584).length := by rw [List.length_take]; omega
    rw [State.setOut_memRead, State.memRead_memWriteList_inside hwf hlen hloaded rfl]
    simp [List.getD_eq_getElem?_getD, hroom]
  · refine ((State.memWriteList_frame_at hwf 0x200 hlen).trans (State.setOut_frame _ _)).mono ?_
    rintro p (⟨a, k, rfl, hk, ha⟩ | hout)
    · rw [List.length_take] at hk
      have hroom : k < 3584 := by omega
      exact .inr ⟨a, k, rfl, by omega, hroom, ha.trans (maskAddr_romWindow hroom)⟩
    · exact .inl hout

/-! ### The end of a run -/

/-- A jump to the instruction's own address leaves pc, so a step there lowers the pulses and does no more (R76, R152). -/
theorem step_of_atSelfJump {s : State} (h : AtSelfJump s) : step s = .next s.clearPulses := by
  obtain ⟨nnn, hd, hself⟩ := h
  have htarget : zext16 nnn = s.pc := BitVec.eq_of_toNat_eq ((toNat_zext16 nnn).trans hself)
  rw [step_of_decoded hd, exec, execJp, htarget]
  rfl

/-- Settles O15: lowering the pulses changes neither pc nor the word fetched there. -/
theorem selfJumpChangesNothing : Obligations.SelfJumpChangesNothing :=
  fun s h => ⟨s.clearPulses, step_of_atSelfJump h, s.setOut_frame _, rfl, h⟩

end Sys2Proof.Machine
end
